-- ==== Sys2Proof/Word.lean ====
section
/-! DEFINITION. The machine's value types: bytes, 16-bit words, the instruction's immediate fields, register numbers (spec 00_scope.md R5, R6). -/

namespace Sys2Proof

/-- An 8-bit value: a general register, a timer, a byte of memory (10_state.md R20, R25, R30). -/
abbrev Byte := BitVec 8

/-- A 16-bit value: I, PC, a stack entry, an instruction (10_state.md R22 to R24, 30_encoding.md R70). -/
abbrev Word := BitVec 16

/-- The immediate nibble `n` (30_encoding.md R71). -/
abbrev Nibble := BitVec 4

/-- The immediate address `nnn` (30_encoding.md R71). -/
abbrev Addr12 := BitVec 12

/-- The number of a general register, 0 to 15 (10_state.md R20). -/
abbrev Reg := Fin 16

/-- VF, the register that is also the flag (10_state.md R21). -/
abbrev regVF : Reg := 15

end Sys2Proof
end

