-- ==== Sys2Proof/Config.lean ====
section
/-! DEFINITION. What an implementation fixes: the constants of 00_scope.md R4, the types of the open parameters of 92_eei_decisions.md, and the free random byte of each Step. -/

namespace Sys2Proof

/-- MEM_SIZE (00_scope.md R4, 20_memory.md R50). -/
abbrev Config.memSize : Nat := 4096

/-- FONT_BASE (00_scope.md R4, 20_memory.md R51). -/
abbrev Config.fontBase : Nat := 0x050

/-- FONT_SIZE (00_scope.md R4, 20_memory.md R52). -/
abbrev Config.fontSize : Nat := 80

/-- PROG_ORIGIN, the load address and the reset value of PC (00_scope.md R4). -/
abbrev Config.progOrigin : Nat := 0x200

/-- MAX_IMAGE (00_scope.md R4, 70_reset_and_hazards.md R242). -/
abbrev Config.maxImage : Nat := 3584

/-- SPRITE_EDGE: what `DRW` does with a pixel past the right or bottom edge (44 R191, D3). -/
inductive SpriteEdge where
  /-- The pixel comes in again at the opposite edge (the spec's default). -/
  | wrap
  /-- The pixel is neither tested nor written. -/
  | clip
  deriving DecidableEq, Repr

/-- SHIFT_SOURCE: which register `SHR` and `SHL` shift (42 R148, R150, D7). -/
inductive ShiftSource where
  /-- V[x] (the spec's default). -/
  | x
  /-- V[y]. -/
  | y
  deriving DecidableEq, Repr

/-- VF_PRIORITY: which write of VF stays when the destination is VF (40 R106, D8). -/
inductive VfPriority where
  /-- The flag (the spec's default). -/
  | flag
  /-- The arithmetic result. -/
  | destination
  deriving DecidableEq, Repr

/-- STRICT_DECODE: what a word with other than the canonical value in its ignored bits is (30 R80, D6). -/
inductive DecodeMode where
  /-- The instruction it is an alias of (STRICT_DECODE = false, the spec's default). -/
  | loose
  /-- A no-op (STRICT_DECODE = true). -/
  | strict
  deriving DecidableEq, Repr

/-- The open parameters of the block (92_eei_decisions.md, "Open parameters, in one list"), fixed for
one machine. A state carries them, so that a claim over all states is a claim for every choice. -/
structure Params where
  /-- FONT_ROM[0..79] (20 R52, D12). -/
  fontRom : Vector Byte 80
  /-- SPRITE_EDGE. -/
  spriteEdge : SpriteEdge
  /-- SHIFT_SOURCE. -/
  shiftSource : ShiftSource
  /-- VF_PRIORITY. -/
  vfPriority : VfPriority
  /-- STRICT_DECODE. -/
  decodeMode : DecodeMode
  deriving DecidableEq, Repr

/-- FREE VALUE (log entry 2). The random byte the outside presents with the Step numbered by the
argument: "a free 8-bit draw of every Step, under no law" (00_scope.md R15, D5). It has no body, so no
proof can know a value of it. -/
opaque Config.rand : Nat → Byte

end Sys2Proof
end

