-- ==== Sys2Proof/Syntax.lean ====
section
/-! DEFINITION. The instruction set: one constructor per row of spec/opcode_table.json, in the table's order (30_encoding.md R81). -/

namespace Sys2Proof

/-- The 34 instructions and the unknown-opcode no-op. Fields are those of 30_encoding.md R71; bits the
decoder ignores are not kept, but the `y` field of the shifts is, since SHIFT_SOURCE = y reads it (R148). -/
inductive Instr where
  /-- `CLS` (R190). -/
  | cls
  /-- `RET` (R120). -/
  | ret
  /-- `JP nnn` (R121). -/
  | jp (nnn : Addr12)
  /-- `CALL nnn` (R122). -/
  | call (nnn : Addr12)
  /-- `SE Vx, kk` (R123). -/
  | seImm (x : Reg) (kk : Byte)
  /-- `SNE Vx, kk` (R124). -/
  | sneImm (x : Reg) (kk : Byte)
  /-- `SE Vx, Vy` (R125). -/
  | seReg (x y : Reg)
  /-- `LD Vx, kk` (R140). -/
  | ldImm (x : Reg) (kk : Byte)
  /-- `ADD Vx, kk` (R141). -/
  | addImm (x : Reg) (kk : Byte)
  /-- `LD Vx, Vy` (R142). -/
  | ldReg (x y : Reg)
  /-- `OR Vx, Vy` (R143). -/
  | orReg (x y : Reg)
  /-- `AND Vx, Vy` (R144). -/
  | andReg (x y : Reg)
  /-- `XOR Vx, Vy` (R145). -/
  | xorReg (x y : Reg)
  /-- `ADD Vx, Vy` (R146). -/
  | addReg (x y : Reg)
  /-- `SUB Vx, Vy` (R147). -/
  | sub (x y : Reg)
  /-- `SHR Vx` (R148). -/
  | shr (x y : Reg)
  /-- `SUBN Vx, Vy` (R149). -/
  | subn (x y : Reg)
  /-- `SHL Vx` (R150). -/
  | shl (x y : Reg)
  /-- `SNE Vx, Vy` (R126). -/
  | sneReg (x y : Reg)
  /-- `LD I, nnn` (R170). -/
  | ldI (nnn : Addr12)
  /-- `JP V0, nnn` (R127). -/
  | jpV0 (nnn : Addr12)
  /-- `RND Vx, kk` (R151). -/
  | rnd (x : Reg) (kk : Byte)
  /-- `DRW Vx, Vy, n` (R191). -/
  | drw (x y : Reg) (n : Nibble)
  /-- `SKP Vx` (R192). -/
  | skp (x : Reg)
  /-- `SKNP Vx` (R193). -/
  | sknp (x : Reg)
  /-- `LD Vx, DT` (R194). -/
  | ldVxDt (x : Reg)
  /-- `LD Vx, K` (R195). -/
  | ldVxK (x : Reg)
  /-- `LD DT, Vx` (R196). -/
  | ldDtVx (x : Reg)
  /-- `LD ST, Vx` (R197). -/
  | ldStVx (x : Reg)
  /-- `ADD I, Vx` (R171). -/
  | addIVx (x : Reg)
  /-- `LD F, Vx` (R172). -/
  | ldFVx (x : Reg)
  /-- `LD B, Vx` (R173). -/
  | ldBVx (x : Reg)
  /-- `LD [I], Vx` (R174). -/
  | ldMemVx (x : Reg)
  /-- `LD Vx, [I]` (R175). -/
  | ldVxMem (x : Reg)
  /-- The no-op of an unmapped word (R107); it carries the word, so that encoding gives it back. -/
  | nopUnknown (w : Word)
  deriving DecidableEq, Repr

end Sys2Proof
end

