-- ==== Sys2Proof/WellFormed.lean ====
section
/-! DEFINITION. Well-formed instructions: field ranges are carried by the types, so the one check is that the no-op's word is one the decoder maps to nothing (30_encoding.md R79). -/

namespace Sys2Proof

/-- The words no instruction has, as 30_encoding.md R79 lists them: by top nibble, then by low nibble
in groups 0, 8 and E and by low byte in group F. -/
def unmapped (w : Word) : Bool :=
  let t := (w >>> 12).toNat
  let n := (w &&& 0x000F#16).toNat
  let kk := (w &&& 0x00FF#16).toNat
  (t == 0x0 && !([0x0, 0xE].contains n)) ||
  (t == 0x8 && [0x8, 0x9, 0xA, 0xB, 0xC, 0xD, 0xF].contains n) ||
  (t == 0xE && !([0x1, 0xE].contains n)) ||
  (t == 0xF && !([0x07, 0x0A, 0x15, 0x18, 0x1E, 0x29, 0x33, 0x55, 0x65].contains kk))

/-- The instruction terms that stand for a word: all but a no-op whose word is some instruction's. -/
def Instr.wf : Instr → Bool
  | .nopUnknown w => unmapped w
  | .cls | .ret | .jp _ | .call _ | .seImm _ _ | .sneImm _ _ | .seReg _ _ | .ldImm _ _ | .addImm _ _
  | .ldReg _ _ | .orReg _ _ | .andReg _ _ | .xorReg _ _ | .addReg _ _ | .sub _ _ | .shr _ _
  | .subn _ _ | .shl _ _ | .sneReg _ _ | .ldI _ | .jpV0 _ | .rnd _ _ | .drw _ _ _ | .skp _ | .sknp _
  | .ldVxDt _ | .ldVxK _ | .ldDtVx _ | .ldStVx _ | .addIVx _ | .ldFVx _ | .ldBVx _ | .ldMemVx _
  | .ldVxMem _ => true

end Sys2Proof
end

