-- ==== Sys2Proof/Decode.lean ====
section
/-! DEFINITION. The decoder, total on any word and on any bytes (30_encoding.md R71, R74 to R80), and after it the encoder (R81, canonical column). -/

namespace Sys2Proof

/-! ## Fields (30_encoding.md R71) -/

/-- `t` = bits 15 to 12, the primary dispatch index. -/
def topField (w : Word) : Nibble := w.extractLsb' 12 4

/-- `x` = bits 11 to 8, a register number. -/
def xField (w : Word) : Reg := (w.extractLsb' 8 4).toFin

/-- `y` = bits 7 to 4, a register number. -/
def yField (w : Word) : Reg := (w.extractLsb' 4 4).toFin

/-- `n` = bits 3 to 0, an immediate nibble or a secondary dispatch index. -/
def nField (w : Word) : Nibble := w.extractLsb' 0 4

/-- `kk` = bits 7 to 0, an immediate byte or the secondary dispatch index of group F. -/
def kkField (w : Word) : Byte := w.extractLsb' 0 8

/-- `nnn` = bits 11 to 0, an immediate address. -/
def nnnField (w : Word) : Addr12 := w.extractLsb' 0 12

/-! ## The two-level dispatch -/

/-- Group 0, on the low nibble (30_encoding.md R75). -/
def decodeGroup0 (w : Word) : Instr :=
  match (nField w).toNat with
  | 0x0 => .cls
  | 0xE => .ret
  | _ => .nopUnknown w

/-- Group 8, on the low nibble (30_encoding.md R76). -/
def decodeGroup8 (w : Word) : Instr :=
  match (nField w).toNat with
  | 0x0 => .ldReg (xField w) (yField w)
  | 0x1 => .orReg (xField w) (yField w)
  | 0x2 => .andReg (xField w) (yField w)
  | 0x3 => .xorReg (xField w) (yField w)
  | 0x4 => .addReg (xField w) (yField w)
  | 0x5 => .sub (xField w) (yField w)
  | 0x6 => .shr (xField w) (yField w)
  | 0x7 => .subn (xField w) (yField w)
  | 0xE => .shl (xField w) (yField w)
  | _ => .nopUnknown w

/-- Group E, on the low nibble (30_encoding.md R77). -/
def decodeGroupE (w : Word) : Instr :=
  match (nField w).toNat with
  | 0x1 => .sknp (xField w)
  | 0xE => .skp (xField w)
  | _ => .nopUnknown w

/-- Group F, on the low byte (30_encoding.md R78). -/
def decodeGroupF (w : Word) : Instr :=
  match (kkField w).toNat with
  | 0x07 => .ldVxDt (xField w)
  | 0x0A => .ldVxK (xField w)
  | 0x15 => .ldDtVx (xField w)
  | 0x18 => .ldStVx (xField w)
  | 0x1E => .addIVx (xField w)
  | 0x29 => .ldFVx (xField w)
  | 0x33 => .ldBVx (xField w)
  | 0x55 => .ldMemVx (xField w)
  | 0x65 => .ldVxMem (xField w)
  | _ => .nopUnknown w

/-- The primary dispatch on the top nibble (30_encoding.md R74). The last arm is never reached: a
nibble is at most 15. -/
def decodeWord (w : Word) : Instr :=
  match (topField w).toNat with
  | 0x0 => decodeGroup0 w
  | 0x1 => .jp (nnnField w)
  | 0x2 => .call (nnnField w)
  | 0x3 => .seImm (xField w) (kkField w)
  | 0x4 => .sneImm (xField w) (kkField w)
  | 0x5 => .seReg (xField w) (yField w)
  | 0x6 => .ldImm (xField w) (kkField w)
  | 0x7 => .addImm (xField w) (kkField w)
  | 0x8 => decodeGroup8 w
  | 0x9 => .sneReg (xField w) (yField w)
  | 0xA => .ldI (nnnField w)
  | 0xB => .jpV0 (nnnField w)
  | 0xC => .rnd (xField w) (kkField w)
  | 0xD => .drw (xField w) (yField w) (nField w)
  | 0xE => decodeGroupE w
  | 0xF => decodeGroupF w
  | _ => .nopUnknown w

/-- The 16-bit instruction two bytes make, the first one high (20_memory.md R53). -/
def wordOfBytes (hi lo : Byte) : Word := hi ++ lo

/-- Why bytes give no instruction. -/
inductive DecodeError where
  /-- Fewer than the two bytes every instruction has (30_encoding.md R70). -/
  | truncated
  deriving DecidableEq, Repr

/-- Decode the first instruction of a byte sequence and give the bytes after it. It refuses only a
sequence of fewer than two bytes: every word has a meaning (30_encoding.md R79, R103). -/
def decode : List Byte → Except DecodeError (Instr × List Byte)
  | hi :: lo :: rest => .ok (decodeWord (wordOfBytes hi lo), rest)
  | [_] => .error .truncated
  | [] => .error .truncated

/-! ## The encoder -/

/-- A register number as the 4 bits of an `x` or `y` field. -/
def regBits (x : Reg) : Nibble := BitVec.ofFin x

/-- `t : nnn`, format A (30_encoding.md R72). -/
def encodeA (t : Nibble) (nnn : Addr12) : Word := t ++ nnn

/-- `t : x : kk`, formats XK and XF (30_encoding.md R72). -/
def encodeXK (t : Nibble) (x : Reg) (kk : Byte) : Word := t ++ (regBits x ++ kk)

/-- `t : x : y : n`, formats XY and XYN (30_encoding.md R72). -/
def encodeXYN (t : Nibble) (x y : Reg) (n : Nibble) : Word := t ++ (regBits x ++ (regBits y ++ n))

/-- The canonical word of an instruction: the word an assembler emits (30_encoding.md R81, column
"canonical"). -/
def encode : Instr → Word
  | .cls => 0x00E0#16
  | .ret => 0x00EE#16
  | .jp nnn => encodeA 0x1#4 nnn
  | .call nnn => encodeA 0x2#4 nnn
  | .seImm x kk => encodeXK 0x3#4 x kk
  | .sneImm x kk => encodeXK 0x4#4 x kk
  | .seReg x y => encodeXYN 0x5#4 x y 0x0#4
  | .ldImm x kk => encodeXK 0x6#4 x kk
  | .addImm x kk => encodeXK 0x7#4 x kk
  | .ldReg x y => encodeXYN 0x8#4 x y 0x0#4
  | .orReg x y => encodeXYN 0x8#4 x y 0x1#4
  | .andReg x y => encodeXYN 0x8#4 x y 0x2#4
  | .xorReg x y => encodeXYN 0x8#4 x y 0x3#4
  | .addReg x y => encodeXYN 0x8#4 x y 0x4#4
  | .sub x y => encodeXYN 0x8#4 x y 0x5#4
  | .shr x y => encodeXYN 0x8#4 x y 0x6#4
  | .subn x y => encodeXYN 0x8#4 x y 0x7#4
  | .shl x y => encodeXYN 0x8#4 x y 0xE#4
  | .sneReg x y => encodeXYN 0x9#4 x y 0x0#4
  | .ldI nnn => encodeA 0xA#4 nnn
  | .jpV0 nnn => encodeA 0xB#4 nnn
  | .rnd x kk => encodeXK 0xC#4 x kk
  | .drw x y n => encodeXYN 0xD#4 x y n
  | .skp x => encodeXK 0xE#4 x 0x9E#8
  | .sknp x => encodeXK 0xE#4 x 0xA1#8
  | .ldVxDt x => encodeXK 0xF#4 x 0x07#8
  | .ldVxK x => encodeXK 0xF#4 x 0x0A#8
  | .ldDtVx x => encodeXK 0xF#4 x 0x15#8
  | .ldStVx x => encodeXK 0xF#4 x 0x18#8
  | .addIVx x => encodeXK 0xF#4 x 0x1E#8
  | .ldFVx x => encodeXK 0xF#4 x 0x29#8
  | .ldBVx x => encodeXK 0xF#4 x 0x33#8
  | .ldMemVx x => encodeXK 0xF#4 x 0x55#8
  | .ldVxMem x => encodeXK 0xF#4 x 0x65#8
  | .nopUnknown w => w

/-- The two bytes of a word as memory holds them, the high one first (20_memory.md R53). -/
def bytesOfWord (w : Word) : List Byte := [w.extractLsb' 8 8, w.extractLsb' 0 8]

/-- The bytes of an instruction as memory holds them. -/
def encodeBytes (i : Instr) : List Byte := bytesOfWord (encode i)

/-- The mask and the match of an instruction's row in the opcode map (30_encoding.md R81). The no-op is
the default row: mask 0 and match 0, which every word meets. -/
def opcodeRow : Instr → Word × Word
  | .cls => (0xF00F, 0x0000)
  | .ret => (0xF00F, 0x000E)
  | .jp _ => (0xF000, 0x1000)
  | .call _ => (0xF000, 0x2000)
  | .seImm _ _ => (0xF000, 0x3000)
  | .sneImm _ _ => (0xF000, 0x4000)
  | .seReg _ _ => (0xF000, 0x5000)
  | .ldImm _ _ => (0xF000, 0x6000)
  | .addImm _ _ => (0xF000, 0x7000)
  | .ldReg _ _ => (0xF00F, 0x8000)
  | .orReg _ _ => (0xF00F, 0x8001)
  | .andReg _ _ => (0xF00F, 0x8002)
  | .xorReg _ _ => (0xF00F, 0x8003)
  | .addReg _ _ => (0xF00F, 0x8004)
  | .sub _ _ => (0xF00F, 0x8005)
  | .shr _ _ => (0xF00F, 0x8006)
  | .subn _ _ => (0xF00F, 0x8007)
  | .shl _ _ => (0xF00F, 0x800E)
  | .sneReg _ _ => (0xF000, 0x9000)
  | .ldI _ => (0xF000, 0xA000)
  | .jpV0 _ => (0xF000, 0xB000)
  | .rnd _ _ => (0xF000, 0xC000)
  | .drw _ _ _ => (0xF000, 0xD000)
  | .skp _ => (0xF00F, 0xE00E)
  | .sknp _ => (0xF00F, 0xE001)
  | .ldVxDt _ => (0xF0FF, 0xF007)
  | .ldVxK _ => (0xF0FF, 0xF00A)
  | .ldDtVx _ => (0xF0FF, 0xF015)
  | .ldStVx _ => (0xF0FF, 0xF018)
  | .addIVx _ => (0xF0FF, 0xF01E)
  | .ldFVx _ => (0xF0FF, 0xF029)
  | .ldBVx _ => (0xF0FF, 0xF033)
  | .ldMemVx _ => (0xF0FF, 0xF055)
  | .ldVxMem _ => (0xF0FF, 0xF065)
  | .nopUnknown _ => (0x0000, 0x0000)

/-! ## The STRICT_DECODE parameter and the host's probe -/

/-- A word an assembler emits for some instruction, or an unmapped word (30_encoding.md R80, R81). -/
def isCanonical (w : Word) : Bool := encode (decodeWord w) == w

/-- The decoder under STRICT_DECODE (92_eei_decisions.md D6): loose is 30_encoding.md R74 to R80;
strict makes a no-op of every word that is not canonical (DESIGN CHOICE among "refuses or no-ops",
log entry 9). -/
def decodeWith (mode : DecodeMode) (w : Word) : Instr :=
  match mode with
  | .loose => decodeWord w
  | .strict => if isCanonical w then decodeWord w else .nopUnknown w

/-- The instruction the decoder reads from an instruction whose bits are `w`, numbered as
spec/opcode_table.json numbers them: one 16-bit word, laid out high byte first. -/
def decodeTableWord (nbits w : Nat) : Option Instr :=
  if nbits ≤ 16 ∧ w < 2 ^ 16 then
    match decode (bytesOfWord (BitVec.ofNat 16 w)) with
    | .ok (i, _) => some i
    | .error _ => none
  else none

end Sys2Proof
end

