-- ==== Sys2Proof/Machine/Memory.lean ====
section
/-! DEFINITION. Memory as a list of the bytes that differ from their reset contents (20_memory.md R50 to R52; log entry 21): reads, writes and the canonical form. -/

namespace Sys2Proof.Machine

/-- What an unlisted address reads as: its byte after PowerOn, which is FONT_ROM in the font region
and 0 elsewhere (10_state.md R34). -/
def Memory.initial (font : Vector Byte 80) (a : Nat) : Byte :=
  if h : 0x50 ≤ a ∧ a < 0xA0 then font[a - 0x50]'(by omega) else 0

/-- The byte listed for an address. -/
def Memory.lookup (a : Nat) : List Host.Cell → Option Byte
  | [] => none
  | (b, w) :: m => if a = b then some w else Memory.lookup a m

/-- The byte at an address: the one listed, else the reset byte. -/
def Memory.read (font : Vector Byte 80) (m : List Host.Cell) (a : Nat) : Byte :=
  (Memory.lookup a m).getD (Memory.initial font a)

/-- The list without any entry for an address. -/
def Memory.erase (a : Nat) : List Host.Cell → List Host.Cell
  | [] => []
  | (b, w) :: m => if a = b then Memory.erase a m else (b, w) :: Memory.erase a m

/-- The list with an entry put in its place by address, in the place of an older one. -/
def Memory.insert (a : Nat) (x : Byte) : List Host.Cell → List Host.Cell
  | [] => [(a, x)]
  | (b, w) :: m =>
    if a < b then (a, x) :: (b, w) :: m
    else if a = b then (a, x) :: m
    else (b, w) :: Memory.insert a x m

/-- Memory after a byte is stored. Storing the reset byte removes the entry, so equal memories are
equal lists. -/
def Memory.write (font : Vector Byte 80) (m : List Host.Cell) (a : Nat) (x : Byte) :
    List Host.Cell :=
  if x = Memory.initial font a then Memory.erase a m else Memory.insert a x m

/-- Memory after bytes are stored at an address and upward, in that order. -/
def Memory.writeList (font : Vector Byte 80) : List Host.Cell → Nat → List Byte → List Host.Cell
  | m, _, [] => m
  | m, a, x :: xs => Memory.writeList font (Memory.write font m a x) (a + 1) xs

/-- The canonical form: addresses strictly rising and inside the 4096 bytes, no entry equal to its
address's reset byte. -/
abbrev Memory.wf (font : Vector Byte 80) (m : List Host.Cell) : Prop :=
  m.Pairwise (fun p q => p.1 < q.1) ∧
    ∀ p ∈ m, p.1 < Config.memSize ∧ p.2 ≠ Memory.initial font p.1

end Sys2Proof.Machine
end

