-- ==== Sys2Proof/Machine/Defaults.lean ====
section
/-! DEFINITION. The values the spec names as the defaults of the open parameters (20_memory.md R52; 92_eei_decisions.md D3, D6, D7, D8), which State.reset carries. -/

namespace Sys2Proof.Machine

/-- The default FONT_ROM of 20_memory.md R52, glyphs 0 to F of 5 bytes each. UNVERIFIED (log entry 3): the
spec marks the table as general knowledge. -/
def defaultFontRom : Vector Byte 80 := #v[
  0xF0, 0x90, 0x90, 0x90, 0xF0,
  0x20, 0x60, 0x20, 0x20, 0x70,
  0xF0, 0x10, 0xF0, 0x80, 0xF0,
  0xF0, 0x10, 0xF0, 0x10, 0xF0,
  0x90, 0x90, 0xF0, 0x10, 0x10,
  0xF0, 0x80, 0xF0, 0x10, 0xF0,
  0xF0, 0x80, 0xF0, 0x90, 0xF0,
  0xF0, 0x10, 0x20, 0x40, 0x40,
  0xF0, 0x90, 0xF0, 0x90, 0xF0,
  0xF0, 0x90, 0xF0, 0x10, 0xF0,
  0xF0, 0x90, 0xF0, 0x90, 0x90,
  0xE0, 0x90, 0xE0, 0x90, 0xE0,
  0xF0, 0x80, 0x80, 0x80, 0xF0,
  0xE0, 0x90, 0x90, 0x90, 0xE0,
  0xF0, 0x80, 0xF0, 0x80, 0xF0,
  0xF0, 0x80, 0xF0, 0x80, 0x80]

/-- SPRITE_EDGE's default, Wrap (D3). -/
def defaultSpriteEdge : SpriteEdge := .wrap

/-- SHIFT_SOURCE's default, x (D7). -/
def defaultShiftSource : ShiftSource := .x

/-- VF_PRIORITY's default, the flag (D8). -/
def defaultVfPriority : VfPriority := .flag

/-- STRICT_DECODE's default, false (D6). -/
def defaultDecodeMode : DecodeMode := .loose

/-- The open parameters at the spec's defaults. -/
def defaultParams : Params :=
  ⟨defaultFontRom, defaultSpriteEdge, defaultShiftSource, defaultVfPriority, defaultDecodeMode⟩

end Sys2Proof.Machine
end

