-- ==== Sys2Proof/Machine/State.lean ====
section
/-! DEFINITION. The machine's state as plain data (10_state.md), its faults (60_exceptions.md R211) and the state after PowerOn (10_state.md R34). -/

namespace Sys2Proof.Machine

/-- Everything that persists from one Step to the next (10_state.md R20 to R30), the Step's random
input, and two fields of the model's own (`steps`, `params`; INVENTORY.md, State). -/
structure State where
  /-- V[0] to V[15] (R20); VF is also the flag (R21). -/
  v : Vector Byte 16
  /-- I (R22). -/
  idx : Word
  /-- PC (R23). -/
  pc : Word
  /-- SP, the number of return addresses on the stack, 0 to 16 (R24). -/
  sp : Fin 17
  /-- STK[0] to STK[15] (R24). -/
  stk : Vector Word 16
  /-- DT, the delay timer (R25). -/
  dt : Byte
  /-- ST, the sound timer (R26). -/
  st : Byte
  /-- FB[r][c], 32 rows of 64 cells, true = on (R27). -/
  fb : Vector (Vector Bool 64) 32
  /-- KEY[k], true = pressed (R28). -/
  key : Vector Bool 16
  /-- MEM (R30): the bytes that differ from their reset contents, by rising address. -/
  mem : List Host.Cell
  /-- The random byte presented with the Step now running (00_scope.md R15). -/
  rand : Byte
  /-- The model's own: how many Steps have been done; it numbers the free random bytes. -/
  steps : Nat
  /-- The model's own: the open parameters (92_eei_decisions.md), which no operation changes. -/
  params : Params
  deriving DecidableEq, Repr

/-- The five causes a Step can be rejected for (60_exceptions.md R211). Each is the spec's own; the
Step changes nothing (40_step_cycle.md R105), so each is safe. -/
inductive Fault where
  /-- Raised by the fetch of any Step when PC > 0xFFE (R212). Safe: the spec's own outcome (D2). -/
  | fetchAddress (pc : Word)
  /-- Raised by `DRW`, `LD B`, `LD [I]`, `LD Vx,[I]` when an access is above 0xFFF (R213); carries the
  lowest failing address. Safe: the spec's own outcome (D2). -/
  | dataAddress (addr : Word)
  /-- Raised by `CALL` when SP = 16 (R214). Safe: the spec's own outcome (D1). -/
  | stackOverflow
  /-- Raised by `RET` when SP = 0 (R215). Safe: the spec's own outcome (D1). -/
  | stackUnderflow
  /-- Raised by `SKP` and `SKNP` when V[x] > 15 (R216); carries V[x]. Safe: the spec's own outcome (D9). -/
  | keyIndex (k : Word)
  deriving DecidableEq, Repr

/-- Why the model gives a step no meaning. -/
inductive Refusal where
  /-- Raised by an arm of `exec` whose instruction has no meaning yet; no arm does so now. Safe. -/
  | notModelled (mnemonic : String)
  deriving DecidableEq, Repr

/-- The state after `PowerOn` of a machine with parameters `p` (10_state.md R34): everything zero, PC at
0x200, memory at its reset contents (nothing listed). `rand` and `steps` are the model's (log entry 2). -/
def State.powerOn (p : Params) : State where
  v := Vector.replicate 16 0
  idx := 0
  pc := 0x200
  sp := 0
  stk := Vector.replicate 16 0
  dt := 0
  st := 0
  fb := Vector.replicate 32 (Vector.replicate 64 false)
  key := Vector.replicate 16 false
  mem := []
  rand := 0
  steps := 0
  params := p

/-- The machine right after reset: `PowerOn` with the spec's default parameters. -/
def State.reset : State := State.powerOn defaultParams

end Sys2Proof.Machine
end

