-- ==== Sys2Proof/Machine/Ops.lean ====
section
/-! DEFINITION. The named operations over the state: registers, memory, the call stack, the frame buffer, the keys, the phases of a Step, and raising a fault. -/

namespace Sys2Proof.Machine

/-- What a step answers. -/
abbrev Result := Host.Outcome State Fault Refusal

/-! ## Faults (60_exceptions.md R210, R211) -/

/-- The one operation that rejects a Step: "raise F(info)" (00_scope.md R7). It saves nothing and goes
nowhere (60_exceptions.md R220); the machine has no trap return (R221). -/
def raise (f : Fault) : Result := .fault f

/-- The cause code of a fault (R211). -/
def Fault.code : Fault → Nat
  | .fetchAddress _ => 1
  | .dataAddress _ => 2
  | .stackOverflow => 3
  | .stackUnderflow => 4
  | .keyIndex _ => 5

/-- The information word of a fault (R211). -/
def Fault.info : Fault → Word
  | .fetchAddress pc => pc
  | .dataAddress addr => addr
  | .stackOverflow => 0
  | .stackUnderflow => 0
  | .keyIndex k => k

/-! ## Registers (10_state.md R20 to R23) -/

/-- `V[x]`. -/
def readReg (s : State) (x : Reg) : Byte := s.v[x.val]'x.isLt

/-- `V[x] <- b`. -/
def writeReg (s : State) (x : Reg) (b : Byte) : State := { s with v := s.v.set x.val b x.isLt }

/-- `I <- w`. -/
def setIdx (s : State) (w : Word) : State := { s with idx := w }

/-- `PC <- w`. -/
def setPc (s : State) (w : Word) : State := { s with pc := w }

/-- `DT <- b`. -/
def setDt (s : State) (b : Byte) : State := { s with dt := b }

/-- `ST <- b`. -/
def setSt (s : State) (b : Byte) : State := { s with st := b }

/-- `if c then PC <- (PC + 2) mod 65536`, the skip of 41_control_flow.md R123 to R126 and
44_display_keypad_timers.md R192, R193. -/
def skipIf (s : State) (c : Bool) : State := if c then setPc s (s.pc + 2) else s

/-! ## Memory (20_memory.md R54 to R59) -/

/-- The byte at an address. -/
def readByte (s : State) (a : Nat) : Byte := Memory.read s.params.fontRom s.mem a

/-- Store bytes at an address and upward, in ascending order. -/
def storeBytes (s : State) (a : Nat) (bs : List Byte) : State :=
  { s with mem := Memory.writeList s.params.fontRom s.mem a bs }

/-- The bytes at an address and upward, `n` of them, in ascending order. -/
def loadBytes (s : State) (a : Nat) : Nat → List Byte
  | 0 => []
  | n + 1 => readByte s a :: loadBytes s (a + 1) n

/-- The fault of a data access through I: the lowest failing address, which is I when I is past the
memory and 0x1000 otherwise (20_memory.md R56, 60_exceptions.md R213). -/
def dataFault (i : Word) : Fault := .dataAddress (if 0xFFF < i.toNat then i else 0x1000)

/-- Go on when the `n` bytes at I all lie in the memory, and fault otherwise; no bytes are in reach of
no access, so `n = 0` goes on whatever I holds (20_memory.md R56). All checks come before the first write
(40_step_cycle.md R105). -/
def withDataRange (s : State) (n : Nat) (k : Result) : Result :=
  if n = 0 ∨ s.idx.toNat + (n - 1) ≤ 0xFFF then k else raise (dataFault s.idx)

/-- V[k], V[k + 1], ... in ascending order, `n` of them. -/
def regList (s : State) (n : Nat) : List Byte := (s.v.toList).take n

/-- Load bytes into V[k], V[k + 1], ... in ascending order, stopping after VF. -/
def loadRegsFrom (v : Vector Byte 16) : Nat → List Byte → Vector Byte 16
  | _, [] => v
  | k, b :: bs => loadRegsFrom (if h : k < 16 then v.set k b h else v) (k + 1) bs

/-- Load bytes into V[0] and upward. -/
def loadRegs (s : State) (bs : List Byte) : State := { s with v := loadRegsFrom s.v 0 bs }

/-! ## Call stack (10_state.md R24) -/

/-- `STK[k]`. -/
def readStack (s : State) (k : Fin 16) : Word := s.stk[k.val]'k.isLt

/-- Push: write `STK[SP]`, then add 1 to SP. A full stack is left alone: the caller faults first. -/
def push (s : State) (w : Word) : State :=
  if h : s.sp.val < 16 then
    { s with stk := s.stk.set s.sp.val w h, sp := ⟨s.sp.val + 1, by omega⟩ }
  else s

/-- The entry a pop reads, `STK[SP - 1]`; an empty stack has none. -/
def topOfStack (s : State) : Option Word :=
  if h : s.sp.val = 0 then none else some (s.stk[s.sp.val - 1]'(by have := s.sp.isLt; omega))

/-- Take 1 from SP; the entry keeps its value (D20). -/
def dropTop (s : State) : State := { s with sp := ⟨s.sp.val - 1, by have := s.sp.isLt; omega⟩ }

/-! ## Frame buffer (10_state.md R27) -/

/-- `FB[r][c]`. -/
def readCell (s : State) (r : Fin 32) (c : Fin 64) : Bool := (s.fb[r.val]'r.isLt)[c.val]'c.isLt

/-- `FB[r][c] <- b`. -/
def fbSet (fb : Vector (Vector Bool 64) 32) (r : Fin 32) (c : Fin 64) (b : Bool) :
    Vector (Vector Bool 64) 32 :=
  fb.set r.val ((fb[r.val]'r.isLt).set c.val b c.isLt) r.isLt

/-- Put a whole frame buffer in place. -/
def setFb (s : State) (fb : Vector (Vector Bool 64) 32) : State := { s with fb := fb }

/-- All cells off. -/
def blankFb : Vector (Vector Bool 64) 32 := Vector.replicate 32 (Vector.replicate 64 false)

/-! ## Keys (10_state.md R28) -/

/-- `KEY[k]`. -/
def readKey (s : State) (k : Fin 16) : Bool := s.key[k.val]'k.isLt

/-- The key numbers in ascending order. -/
def keyNumbers : List (Fin 16) := [0, 1, 2, 3, 4, 5, 6, 7, 8, 9, 10, 11, 12, 13, 14, 15]

/-- The least pressed key, if one is pressed (44_display_keypad_timers.md R195). -/
def lowestKey (s : State) : Option (Fin 16) := keyNumbers.find? (readKey s)

/-! ## The phases of a Step around its instruction (40_step_cycle.md R100 to R104) -/

/-- Fetch: `MEM[PC] : MEM[PC + 1]`, or nothing when PC > 0xFFE (R101, 20_memory.md R53, R57). -/
def fetch (s : State) : Option Word :=
  if s.pc.toNat ≤ 0xFFE then
    some (wordOfBytes (readByte s s.pc.toNat) (readByte s (s.pc.toNat + 1)))
  else none

/-- Pre-advance: PC + 2 (R102), with the Step's random byte presented (00_scope.md R15) and the Step
counted. -/
def beginStep (r : Byte) (s : State) : State :=
  { s with pc := s.pc + 2, rand := r, steps := s.steps + 1 }

/-- A timer after a tick: 1 less when above 0 (R104). -/
def tickByte (b : Byte) : Byte := if 0 < b.toNat then b - 1 else b

/-- The timer tick (R104). -/
def tick (s : State) : State := { s with dt := tickByte s.dt, st := tickByte s.st }

/-- The last phase: a Step whose instruction completed ticks the timers; a rejected one does not
(R104, R105). -/
def completeStep : Result → Result
  | .next s => .next (tick s)
  | .fault f => .fault f
  | .refused r => .refused r

end Sys2Proof.Machine
end

