-- ==== Sys2Proof/Machine/Flags.lean ====
section
/-! DEFINITION. Every value an instruction writes to VF as a flag (10_state.md R21), and the order of the destination's and the flag's writes (40_step_cycle.md R106). -/

namespace Sys2Proof.Machine

/-- A flag as VF holds it: 1 or 0. -/
def flagByte (b : Bool) : Byte := if b then 1 else 0

/-- Carry: the sum exceeds 255 (42_alu.md R146). -/
def carryFlag (a b : Byte) : Byte := flagByte (decide (255 < a.toNat + b.toNat))

/-- NOT borrow of `a - b`: 1 when a >= b (42_alu.md R147, R149). -/
def notBorrowFlag (a b : Byte) : Byte := flagByte (decide (b.toNat ≤ a.toNat))

/-- Bit 0 before a shift right (42_alu.md R148). -/
def lowBitFlag (b : Byte) : Byte := flagByte (b.getLsbD 0)

/-- Bit 7 before a shift left (42_alu.md R150). -/
def highBitFlag (b : Byte) : Byte := flagByte (b.getLsbD 7)

/-- `V[x] <- r; V[0xF] <- f`: the later write stays when x = 0xF, so the flag wins by default; under
VF_PRIORITY = destination the order is turned round (40_step_cycle.md R106, D8). -/
def writeResultFlag (s : State) (x : Reg) (r f : Byte) : State :=
  match s.params.vfPriority with
  | .flag => writeReg (writeReg s x r) regVF f
  | .destination => writeReg (writeReg s regVF f) x r

end Sys2Proof.Machine
end

