-- ==== Sys2Proof/Machine/Operands.lean ====
section
/-! DEFINITION. Every operand form of the instruction set: immediates, glyph addresses, decimal digits, sprite coordinates and cells, key indices, the shift source. -/

namespace Sys2Proof.Machine

/-- `zext_16(nnn)` (30_encoding.md R73). -/
def zextAddr (nnn : Addr12) : Word := nnn.setWidth 16

/-- `zext_16(b)`. -/
def zextByte (b : Byte) : Word := b.setWidth 16

/-- The address of a digit's glyph, `0x050 + 5 * V[x]`, with no mask (43_index_memory.md R172). -/
def glyphAddr (b : Byte) : Word := BitVec.ofNat 16 (0x050 + 5 * b.toNat)

/-- The hundreds, tens and ones of a byte (43_index_memory.md R173). -/
def bcdDigits (b : Byte) : List Byte :=
  [BitVec.ofNat 8 (b.toNat / 100), BitVec.ofNat 8 (b.toNat / 10 % 10), BitVec.ofNat 8 (b.toNat % 10)]

/-- How many bytes `LD [I], Vx` and `LD Vx, [I]` move: x + 1 (43_index_memory.md R174, R175). -/
def regCount (x : Reg) : Nat := x.val + 1

/-- The register the shifts read, by SHIFT_SOURCE (42_alu.md R148, R150). -/
def shiftSource (s : State) (x y : Reg) : Byte :=
  match s.params.shiftSource with
  | .x => readReg s x
  | .y => readReg s y

/-- A byte as a key index: none when it is above 15 (44_display_keypad_timers.md R192). -/
def keyIndex (b : Byte) : Option (Fin 16) := if h : b.toNat < 16 then some ⟨b.toNat, h⟩ else none

/-- The start column of a sprite, `V[x] mod 64` (44_display_keypad_timers.md R191). -/
def spriteCol (s : State) (x : Reg) : Nat := (readReg s x).toNat % 64

/-- The start row of a sprite, `V[y] mod 32` (44_display_keypad_timers.md R191). -/
def spriteRow (s : State) (y : Reg) : Nat := (readReg s y).toNat % 32

/-- The cell at row `row` and column `col`, counted past the edges: wrapped by `mod`, or none when it
is clipped, by SPRITE_EDGE (44_display_keypad_timers.md R191). -/
def cellAt (edge : SpriteEdge) (row col : Nat) : Option (Fin 32 × Fin 64) :=
  match edge with
  | .wrap => some (⟨row % 32, Nat.mod_lt _ (by decide)⟩, ⟨col % 64, Nat.mod_lt _ (by decide)⟩)
  | .clip => if h : row < 32 ∧ col < 64 then some (⟨row, h.1⟩, ⟨col, h.2⟩) else none

/-- Pixel `c` of a sprite row, counted from the left: bit 7 is the leftmost
(44_display_keypad_timers.md R191; UNVERIFIED, log entry 5). -/
def spriteBit (b : Byte) (c : Nat) : Bool := b.getLsbD (7 - c)

end Sys2Proof.Machine
end

