-- ==== Sys2Proof/Machine/Alu.lean ====
section
/-! DEFINITION. Register loads, arithmetic, logic, shifts and random (42_alu.md R140 to R151). -/

namespace Sys2Proof.Machine

/-- `LD Vx, kk` (R140). -/
def execLdImm (x : Reg) (kk : Byte) (s : State) : Result := .next (writeReg s x kk)

/-- `ADD Vx, kk`, no flag (R141). -/
def execAddImm (x : Reg) (kk : Byte) (s : State) : Result := .next (writeReg s x (readReg s x + kk))

/-- `LD Vx, Vy` (R142). -/
def execLdReg (x y : Reg) (s : State) : Result := .next (writeReg s x (readReg s y))

/-- `OR Vx, Vy`, VF not touched (R143). -/
def execOr (x y : Reg) (s : State) : Result := .next (writeReg s x (readReg s x ||| readReg s y))

/-- `AND Vx, Vy`, VF not touched (R144). -/
def execAnd (x y : Reg) (s : State) : Result := .next (writeReg s x (readReg s x &&& readReg s y))

/-- `XOR Vx, Vy`, VF not touched (R145). -/
def execXor (x y : Reg) (s : State) : Result := .next (writeReg s x (readReg s x ^^^ readReg s y))

/-- `ADD Vx, Vy`, VF = carry (R146). -/
def execAddReg (x y : Reg) (s : State) : Result :=
  .next (writeResultFlag s x (readReg s x + readReg s y) (carryFlag (readReg s x) (readReg s y)))

/-- `SUB Vx, Vy`, VF = NOT borrow (R147). -/
def execSub (x y : Reg) (s : State) : Result :=
  .next (writeResultFlag s x (readReg s x - readReg s y) (notBorrowFlag (readReg s x) (readReg s y)))

/-- `SHR Vx`, VF = bit 0 of the source before the shift (R148). -/
def execShr (x y : Reg) (s : State) : Result :=
  .next (writeResultFlag s x (shiftSource s x y >>> 1) (lowBitFlag (shiftSource s x y)))

/-- `SUBN Vx, Vy`, V[y] - V[x] to V[x], VF = NOT borrow (R149). -/
def execSubn (x y : Reg) (s : State) : Result :=
  .next (writeResultFlag s x (readReg s y - readReg s x) (notBorrowFlag (readReg s y) (readReg s x)))

/-- `SHL Vx`, VF = bit 7 of the source before the shift (R150). -/
def execShl (x y : Reg) (s : State) : Result :=
  .next (writeResultFlag s x (shiftSource s x y <<< 1) (highBitFlag (shiftSource s x y)))

/-- `RND Vx, kk`: the Step's random byte and `kk` (R151). -/
def execRnd (x : Reg) (kk : Byte) (s : State) : Result := .next (writeReg s x (s.rand &&& kk))

end Sys2Proof.Machine
end

