-- ==== Sys2Proof/Machine/Control.lean ====
section
/-! DEFINITION. Control transfer (41_control_flow.md R120 to R127). PC is already the fetch address plus 2. -/

namespace Sys2Proof.Machine

/-- `RET` (R120). -/
def execRet (s : State) : Result :=
  match topOfStack s with
  | none => raise .stackUnderflow
  | some w => .next (setPc (dropTop s) w)

/-- `JP nnn` (R121). -/
def execJp (nnn : Addr12) (s : State) : Result := .next (setPc s (zextAddr nnn))

/-- `CALL nnn` (R122). -/
def execCall (nnn : Addr12) (s : State) : Result :=
  if s.sp.val = 16 then raise .stackOverflow else .next (setPc (push s s.pc) (zextAddr nnn))

/-- `SE Vx, kk` (R123). -/
def execSeImm (x : Reg) (kk : Byte) (s : State) : Result := .next (skipIf s (readReg s x == kk))

/-- `SNE Vx, kk` (R124). -/
def execSneImm (x : Reg) (kk : Byte) (s : State) : Result := .next (skipIf s (readReg s x != kk))

/-- `SE Vx, Vy` (R125). -/
def execSeReg (x y : Reg) (s : State) : Result := .next (skipIf s (readReg s x == readReg s y))

/-- `SNE Vx, Vy` (R126). -/
def execSneReg (x y : Reg) (s : State) : Result := .next (skipIf s (readReg s x != readReg s y))

/-- `JP V0, nnn` (R127). -/
def execJpV0 (nnn : Addr12) (s : State) : Result :=
  .next (setPc s (zextAddr nnn + zextByte (readReg s 0)))

end Sys2Proof.Machine
end

