-- ==== Sys2Proof/Machine/Display.lean ====
section
/-! DEFINITION. The frame-buffer instructions (44_display_keypad_timers.md R190, R191). -/

namespace Sys2Proof.Machine

/-- `CLS` (R190). -/
def execCls (s : State) : Result := .next (setFb s blankFb)

/-- The frame buffer while a sprite is drawn, and whether an on cell was turned off so far. -/
abbrev Canvas := Vector (Vector Bool 64) 32 × Bool

/-- One pixel of a sprite: a 1 bit flips its cell and hits when the cell was on (R191). -/
def drawPixel (edge : SpriteEdge) (row col0 : Nat) (b : Byte) (k : Canvas) (c : Nat) : Canvas :=
  if spriteBit b c then
    match cellAt edge row (col0 + c) with
    | none => k
    | some (r, cl) =>
      let old := (k.1[r.val]'r.isLt)[cl.val]'cl.isLt
      (fbSet k.1 r cl (!old), k.2 || old)
  else k

/-- One row of a sprite, its eight pixels from the left (R191). -/
def drawRow (edge : SpriteEdge) (row col0 : Nat) (k : Canvas) (b : Byte) : Canvas :=
  [0, 1, 2, 3, 4, 5, 6, 7].foldl (drawPixel edge row col0 b) k

/-- The rows of a sprite, from the top (R191). -/
def drawRows (edge : SpriteEdge) (col0 : Nat) : Nat → Canvas → List Byte → Canvas
  | _, k, [] => k
  | row, k, b :: bs => drawRows edge col0 (row + 1) (drawRow edge row col0 k b) bs

/-- `DRW Vx, Vy, n`, VF = collision (R191). Coordinates are read before VF is written (40 R106). -/
def execDrw (x y : Reg) (n : Nibble) (s : State) : Result :=
  withDataRange s n.toNat
    (let k := drawRows s.params.spriteEdge (spriteCol s x) (spriteRow s y) (s.fb, false)
      (loadBytes s s.idx.toNat n.toNat)
    .next (writeReg (setFb s k.1) regVF (flagByte k.2)))

end Sys2Proof.Machine
end

