-- ==== Sys2Proof/Machine/Index.lean ====
section
/-! DEFINITION. The index register and memory instructions (43_index_memory.md R170 to R176). None of the accesses changes I (R176). -/

namespace Sys2Proof.Machine

/-- `LD I, nnn` (R170). -/
def execLdI (nnn : Addr12) (s : State) : Result := .next (setIdx s (zextAddr nnn))

/-- `ADD I, Vx`, mod 65536, no flag (R171). -/
def execAddIVx (x : Reg) (s : State) : Result := .next (setIdx s (s.idx + zextByte (readReg s x)))

/-- `LD F, Vx` (R172). -/
def execLdFVx (x : Reg) (s : State) : Result := .next (setIdx s (glyphAddr (readReg s x)))

/-- `LD B, Vx` (R173). -/
def execLdBVx (x : Reg) (s : State) : Result :=
  withDataRange s 3 (.next (storeBytes s s.idx.toNat (bcdDigits (readReg s x))))

/-- `LD [I], Vx` (R174). -/
def execLdMemVx (x : Reg) (s : State) : Result :=
  withDataRange s (regCount x) (.next (storeBytes s s.idx.toNat (regList s (regCount x))))

/-- `LD Vx, [I]` (R175). -/
def execLdVxMem (x : Reg) (s : State) : Result :=
  withDataRange s (regCount x) (.next (loadRegs s (loadBytes s s.idx.toNat (regCount x))))

end Sys2Proof.Machine
end

