-- ==== Sys2Proof/Machine/Keypad.lean ====
section
/-! DEFINITION. The keypad and timer instructions (44_display_keypad_timers.md R192 to R197) and the unknown-opcode no-op (40_step_cycle.md R107). -/

namespace Sys2Proof.Machine

/-- `SKP Vx` (R192). -/
def execSkp (x : Reg) (s : State) : Result :=
  match keyIndex (readReg s x) with
  | none => raise (.keyIndex (zextByte (readReg s x)))
  | some k => .next (skipIf s (readKey s k))

/-- `SKNP Vx` (R193). -/
def execSknp (x : Reg) (s : State) : Result :=
  match keyIndex (readReg s x) with
  | none => raise (.keyIndex (zextByte (readReg s x)))
  | some k => .next (skipIf s (!readKey s k))

/-- `LD Vx, DT`, DT as it is before this Step's tick (R194). -/
def execLdVxDt (x : Reg) (s : State) : Result := .next (writeReg s x s.dt)

/-- `LD Vx, K`: the least pressed key, or back to this instruction's own address (R195). -/
def execLdVxK (x : Reg) (s : State) : Result :=
  match lowestKey s with
  | some k => .next (writeReg s x (BitVec.ofNat 8 k.val))
  | none => .next (setPc s (s.pc - 2))

/-- `LD DT, Vx` (R196). -/
def execLdDtVx (x : Reg) (s : State) : Result := .next (setDt s (readReg s x))

/-- `LD ST, Vx` (R197). -/
def execLdStVx (x : Reg) (s : State) : Result := .next (setSt s (readReg s x))

/-- The unknown-opcode no-op: nothing (40_step_cycle.md R107). -/
def execNopUnknown (s : State) : Result := .next s

end Sys2Proof.Machine
end

