-- ==== Sys2Proof/Machine/Step.lean ====
section
/-! DEFINITION. One Step: fetch, pre-advance, decode and execute, timer tick (40_step_cycle.md R100), and the placing of one instruction where the next Step fetches. -/

namespace Sys2Proof.Machine

/-- `Step(rand)` of 40_step_cycle.md R100, with the random byte presented by the caller. -/
def stepWith (r : Byte) (s : State) : Result :=
  match fetch s with
  | none => raise (.fetchAddress s.pc)
  | some w => completeStep (exec (decodeWith s.params.decodeMode w) (beginStep r s))

/-- One Step under the free random byte of its number (00_scope.md R15; log entry 2). -/
def step (s : State) : Host.Outcome State Fault Refusal := stepWith (Config.rand s.steps) s

/-- The state with the instruction whose bits are `w` stored at PC, high byte first; where PC is past
the last place an instruction fits, PC is first put at 0x200, which the fetch needs (log entry 25). -/
def State.withFetchWord (s : State) (nbits w : Nat) : State :=
  let s' := if s.pc.toNat ≤ 0xFFE then s else setPc s 0x200
  storeBytes s' s'.pc.toNat (bytesOfWord (BitVec.ofNat 16 (w % 2 ^ nbits)))

end Sys2Proof.Machine
end

