-- ==== Sys2Proof/Machine/HostOps.lean ====
section
/-! DEFINITION. What the host does between Steps (00_scope.md R9, R14, R16; 70_reset_and_hazards.md R240 to R244) and a run as a sequence of its requests (R18). -/

namespace Sys2Proof.Machine

/-- The outcome of a `ResetLoad` (70_reset_and_hazards.md R241, R242). -/
inductive LoadOutcome where
  /-- The image is loaded; the state after it. -/
  | ok (s : State)
  /-- The image of `len` bytes is longer than 3584; nothing changes. -/
  | loadTooLarge (len : Nat)
  deriving DecidableEq, Repr

/-- The reset part of `ResetLoad` (R241): everything zero but memory, which gets the font back. The
parameters and the model's step count stay: a count put back to 0 would repeat the random bytes. -/
def resetForLoad (s : State) : State :=
  { State.powerOn s.params with
    mem := Memory.writeList s.params.fontRom s.mem Config.fontBase s.params.fontRom.toList
    rand := s.rand
    steps := s.steps }

/-- `ResetLoad(image)` (70_reset_and_hazards.md R241, R242; 10_state.md R35). -/
def resetLoad (image : List Byte) (s : State) : LoadOutcome :=
  if Config.maxImage < image.length then .loadTooLarge image.length
  else .ok (storeBytes (resetForLoad s) Config.progOrigin image)

/-- `set_key(k, b)` (00_scope.md R14). -/
def setKey (k : Fin 16) (b : Bool) (s : State) : State := { s with key := s.key.set k.val b k.isLt }

/-- `ReadFrameBuffer` (00_scope.md R16). -/
def readFrameBuffer (s : State) : Vector (Vector Bool 64) 32 := s.fb

/-- `ReadSoundTimer` (00_scope.md R16). -/
def readSoundTimer (s : State) : Byte := s.st

/-- The tone output, `ST != 0` (00_scope.md R16). -/
def tone (s : State) : Bool := readSoundTimer s != 0

/-- What the host can request between Steps (70_reset_and_hazards.md R244). -/
inductive HostRequest where
  /-- One Step with a random byte. -/
  | step (rand : Byte)
  /-- `ResetLoad` of an image. -/
  | resetLoad (image : List Byte)
  /-- Set or clear a key flag. -/
  | setKey (k : Fin 16) (b : Bool)
  deriving DecidableEq, Repr

/-- What the block reports for a request (00_scope.md R16). -/
inductive HostReport where
  /-- Done. -/
  | ok
  /-- The Step was rejected with this fault. -/
  | fault (f : Fault)
  /-- The model has no meaning for the Step. -/
  | refused (r : Refusal)
  /-- The image was too large. -/
  | loadTooLarge (len : Nat)
  deriving DecidableEq, Repr

/-- One request: the report and the state after it. A rejected Step or load leaves the state as it was
(60_exceptions.md R210, 70_reset_and_hazards.md R242). -/
def hostStep (q : HostRequest) (s : State) : HostReport × State :=
  match q with
  | .step r =>
    match stepWith r s with
    | .next t => (.ok, t)
    | .fault f => (.fault f, s)
    | .refused e => (.refused e, s)
  | .resetLoad image =>
    match resetLoad image s with
    | .ok t => (.ok, t)
    | .loadTooLarge n => (.loadTooLarge n, s)
  | .setKey k b => (.ok, setKey k b s)

/-- A run: the reports of a sequence of requests and the state after them (00_scope.md R18). -/
def hostRun : List HostRequest → State → List HostReport × State
  | [], s => ([], s)
  | q :: qs, s =>
    let (r, t) := hostStep q s
    let (rs, u) := hostRun qs t
    (r :: rs, u)

end Sys2Proof.Machine
end

