-- ==== Sys2Proof/Safety.lean ====
section
/-! DEFINITION. What claims are stated in: what a step may change, the machine's invariant, and when a step or a run is safe. -/

namespace Sys2Proof.Machine

/-- Which parts of the state an operation may change: registers by number, memory bytes by address,
the rest by name. Keys, parameters, the random input and the step count are in no footprint: no
instruction changes them. -/
structure Footprint where
  /-- The registers that may change. -/
  regs : List Reg := []
  /-- The addresses whose bytes may change. -/
  bytes : Nat → Prop := fun _ => False
  /-- Whether I may change. -/
  idx : Bool := false
  /-- Whether PC may change. -/
  pc : Bool := false
  /-- Whether SP and the stack entries may change. -/
  stack : Bool := false
  /-- Whether DT may change. -/
  dt : Bool := false
  /-- Whether ST may change. -/
  st : Bool := false
  /-- Whether frame-buffer cells may change. -/
  display : Bool := false

/-- `t` differs from `s` only inside the footprint. -/
structure ChangesOnly (f : Footprint) (s t : State) : Prop where
  /-- Registers outside the footprint. -/
  regs : ∀ j, j ∉ f.regs → readReg t j = readReg s j
  /-- Bytes of memory outside the footprint. -/
  bytes : ∀ a, ¬ f.bytes a → readByte t a = readByte s a
  /-- I. -/
  idx : f.idx = false → t.idx = s.idx
  /-- PC. -/
  pc : f.pc = false → t.pc = s.pc
  /-- SP. -/
  sp : f.stack = false → t.sp = s.sp
  /-- The stack entries. -/
  stk : f.stack = false → ∀ k, readStack t k = readStack s k
  /-- DT. -/
  dt : f.dt = false → t.dt = s.dt
  /-- ST. -/
  st : f.st = false → t.st = s.st
  /-- Frame-buffer cells. -/
  display : f.display = false → ∀ r c, readCell t r c = readCell s r c
  /-- Key flags: the host's alone (10_state.md R28). -/
  key : t.key = s.key
  /-- The Step's random input. -/
  rand : t.rand = s.rand
  /-- The count of Steps. -/
  steps : t.steps = s.steps
  /-- The parameters. -/
  params : t.params = s.params

/-- What every state of a run has: memory in its canonical form; PC at most 0x10FE, so that no PC
arithmetic wraps (10_state.md R23); every stack entry a return address an instruction inside the
memory can push, at most 0x1000. -/
structure MachineInv (s : State) : Prop where
  /-- Canonical memory. -/
  mem : Memory.wf s.params.fontRom s.mem
  /-- PC in reach. -/
  pc : s.pc.toNat ≤ 0x10FE
  /-- Stack entries in reach. -/
  stk : ∀ k, (readStack s k).toNat ≤ 0x1000

/-- A Step from `s` completes. -/
def StepOk (s : State) : Prop := ∃ t, step s = .next t

/-- `n` Steps from `s` complete: no fault and no refusal. -/
def SafeFor : Nat → State → Prop
  | 0, _ => True
  | n + 1, s => ∃ t, step s = .next t ∧ SafeFor n t

end Sys2Proof.Machine
end

