-- ==== Sys2Proof/Certificates/Slice0/Obligations.lean ====
section
/-! DEFINITION. The statements for the provers, from the spec's numbered rules. Every statement is about all states, so about every choice of the open parameters of 92_eei_decisions.md too. -/

namespace Sys2Proof.Machine

/-! ## Words the statements share -/

/-- Every word the opcode map selects with this mask and match decodes to the instruction given. -/
def Selects (mask mtch : Word) (f : Word → Instr) : Prop :=
  ∀ w : Word, w &&& mask = mtch → decodeWord w = f w

/-- The instruction completes in `s`, and the state it leaves has the property. -/
def Completes (i : Instr) (s : State) (post : State → Prop) : Prop :=
  ∃ t, exec i s = .next t ∧ post t

/-- The result stands in V[x] and the flag in VF. When x = 0xF they meet, and VF_PRIORITY says which
stays: the flag by the spec's rule, the result by the named alternative (40 R106, 92 D8). -/
def ResultAndFlag (x : Reg) (result flag : Nat) (s t : State) : Prop :=
  (x ≠ 15 → (readReg t x).toNat = result ∧ (readReg t 15).toNat = flag) ∧
  (x = 15 → s.params.vfPriority = .flag → (readReg t 15).toNat = flag) ∧
  (x = 15 → s.params.vfPriority = .destination → (readReg t 15).toNat = result)

/-- The fault the table of 60_exceptions.md R211 gives an instruction in a state, if any. -/
def tableFault (i : Instr) (s : State) : Option Fault :=
  let data (n : Nat) : Option Fault :=
    if 0 < n ∧ 0xFFF < s.idx.toNat + n - 1 then
      some (.dataAddress (if 0xFFF < s.idx.toNat then s.idx else 0x1000))
    else none
  let key (x : Reg) : Option Fault :=
    if 15 < (readReg s x).toNat then some (.keyIndex (BitVec.ofNat 16 (readReg s x).toNat)) else none
  match i with
  | .call _ => if s.sp.val = 16 then some .stackOverflow else none
  | .ret => if s.sp.val = 0 then some .stackUnderflow else none
  | .drw _ _ n => data n.toNat
  | .ldBVx _ => data 3
  | .ldMemVx x => data (x.val + 1)
  | .ldVxMem x => data (x.val + 1)
  | .skp x => key x
  | .sknp x => key x
  | _ => none

/-- The table of 10_state.md R23: PC after a Step that executes `i`, in numbers, where A is the fetch
address and `s` the state before the Step. -/
def tablePc (i : Instr) (s : State) : Nat :=
  let a := s.pc.toNat
  let skip (c : Bool) : Nat := if c then a + 4 else a + 2
  let down (x : Reg) : Bool := decide (∃ k : Fin 16, k.val = (readReg s x).toNat ∧ readKey s k = true)
  match i with
  | .jp nnn => nnn.toNat
  | .call nnn => nnn.toNat
  | .ret => if h : 0 < s.sp.val then (readStack s ⟨s.sp.val - 1, by have := s.sp.isLt; omega⟩).toNat else 0
  | .jpV0 nnn => nnn.toNat + (readReg s 0).toNat
  | .seImm x kk => skip (decide (readReg s x = kk))
  | .sneImm x kk => skip (decide (readReg s x ≠ kk))
  | .seReg x y => skip (decide (readReg s x = readReg s y))
  | .sneReg x y => skip (decide (readReg s x ≠ readReg s y))
  | .skp x => skip (down x)
  | .sknp x => skip (!down x)
  | .ldVxK _ => if ∃ k, readKey s k = true then a + 2 else a
  | _ => a + 2

/-- Whether a sprite has a 1 bit over a cell (44_display_keypad_timers.md R191), in closed form: the
cell's row and column counted from the sprite's start, around the edge under Wrap. -/
def spriteCovers (s : State) (x y : Reg) (n : Nibble) (r : Fin 32) (c : Fin 64) : Prop :=
  let c0 := (readReg s x).toNat % 64
  let r0 := (readReg s y).toNat % 32
  let at' (dr dc : Nat) : Prop :=
    dr < n.toNat ∧ dc < 8 ∧ (readByte s (s.idx.toNat + dr)).getLsbD (7 - dc) = true
  match s.params.spriteEdge with
  | .wrap => at' ((r.val + 32 - r0) % 32) ((c.val + 64 - c0) % 64)
  | .clip => r0 ≤ r.val ∧ c0 ≤ c.val ∧ at' (r.val - r0) (c.val - c0)

/-- The bytes an instruction stores to (20_memory.md R65). -/
def storedBytes (i : Instr) (s : State) (a : Nat) : Prop :=
  match i with
  | .ldBVx _ => s.idx.toNat ≤ a ∧ a ≤ s.idx.toNat + 2
  | .ldMemVx x => s.idx.toNat ≤ a ∧ a ≤ s.idx.toNat + x.val
  | _ => False

/-- The instructions that may write VF (10_state.md R21): the six flag writers, and those whose
destination is VF itself. -/
def mayWriteVF : Instr → Prop
  | .addReg _ _ | .sub _ _ | .shr _ _ | .subn _ _ | .shl _ _ | .drw _ _ _ => True
  | .ldImm x _ | .addImm x _ | .rnd x _ | .ldReg x _ | .orReg x _ | .andReg x _ | .xorReg x _ => x = 15
  | .ldVxDt x | .ldVxK x | .ldVxMem x => x = 15
  | _ => False

end Sys2Proof.Machine

open Sys2Proof Sys2Proof.Machine

/-! ## Encoding (30_encoding.md) -/

/-- R70, R53, R81: the two bytes of every well-formed instruction, whatever follows them, decode to that
instruction and leave what follows. -/
def Obligations.EncodedBytesDecodeBack : Prop :=
  ∀ (i : Instr) (rest : List Byte), i.wf = true → decode (encodeBytes i ++ rest) = .ok (i, rest)

/-- R79, R103: every word decodes to a well-formed instruction, and the canonical word of that
instruction decodes to the same one. -/
def Obligations.EveryWordDecodesToAWellFormedInstruction : Prop :=
  ∀ w : Word, (decodeWord w).wf = true ∧ decodeWord (encode (decodeWord w)) = decodeWord w

/-- R81: a word is an instruction of a row exactly when its masked bits are the row's match; so the rows
select disjoint sets of words. -/
def Obligations.OpcodeRowsSelectTheirInstructions : Prop :=
  ∀ (w : Word) (i : Instr), (∀ u, i ≠ .nopUnknown u) →
    (w &&& (opcodeRow i).1 = (opcodeRow i).2 ↔ opcodeRow (decodeWord w) = opcodeRow i)

/-- R79: the words that decode to the no-op are those of R79's list, and it carries the word. -/
def Obligations.UnmappedWordsAreExactlyTheListed : Prop :=
  ∀ w : Word,
    let t := w.toNat / 4096
    let n := w.toNat % 16
    let kk := w.toNat % 256
    decodeWord w = .nopUnknown w ↔
      (t = 0 ∧ n ≠ 0 ∧ n ≠ 0xE) ∨
      (t = 8 ∧ (n = 8 ∨ n = 9 ∨ n = 0xA ∨ n = 0xB ∨ n = 0xC ∨ n = 0xD ∨ n = 0xF)) ∨
      (t = 0xE ∧ n ≠ 1 ∧ n ≠ 0xE) ∨
      (t = 0xF ∧ kk ≠ 0x07 ∧ kk ≠ 0x0A ∧ kk ≠ 0x15 ∧ kk ≠ 0x18 ∧ kk ≠ 0x1E ∧ kk ≠ 0x29 ∧ kk ≠ 0x33 ∧
        kk ≠ 0x55 ∧ kk ≠ 0x65)

/-- R86 and the canonical column of R81: one word of each family, written out from the spec. -/
def Obligations.SampleWordsDecode : Prop :=
  decodeWord 0x600A = .ldImm 0 0x0A ∧ decodeWord 0x6105 = .ldImm 1 0x05 ∧
  decodeWord 0x8014 = .addReg 0 1 ∧ decodeWord 0x00E0 = .cls ∧ decodeWord 0x00EE = .ret ∧
  decodeWord 0x2208 = .call 0x208 ∧ decodeWord 0x5120 = .seReg 1 2 ∧ decodeWord 0xB520 = .jpV0 0x520 ∧
  decodeWord 0xA300 = .ldI 0x300 ∧ decodeWord 0xC00F = .rnd 0 0x0F ∧ decodeWord 0xD125 = .drw 1 2 5 ∧
  decodeWord 0xE09E = .skp 0 ∧ decodeWord 0xF30A = .ldVxK 3 ∧ decodeWord 0xF118 = .ldStVx 1 ∧
  decodeWord 0xFF55 = .ldMemVx 15 ∧ decodeWord 0x8018 = .nopUnknown 0x8018

/-- R80, D6: under STRICT_DECODE a canonical word is what it is under the default, and every other word
is a no-op; an instruction's own word is canonical. That the other words are no-ops and not refused is
the model's choice (log entry 9). -/
def Obligations.StrictDecodeKeepsCanonicalWords : Prop :=
  (∀ w : Word, decodeWith .strict w = if encode (decodeWord w) = w then decodeWord w else .nopUnknown w) ∧
  (∀ (mode : DecodeMode) (i : Instr), i.wf = true → decodeWith mode (encode i) = i)

/-! ## The Step (40_step_cycle.md, 60_exceptions.md) -/

/-- R100: a Step fetches at A, advances PC by 2, executes the decoded instruction under the Step's
random byte, and ticks each timer above 0; a fetch past the memory is a fault, and a fault ends it. The
byte is the free one of this Step (log entry 2); the decoder is R74's unless STRICT_DECODE is set. -/
def Obligations.StepRunsTheDecodedInstruction : Prop :=
  ∀ s : State,
    (0xFFE < s.pc.toNat → step s = .fault (.fetchAddress s.pc)) ∧
    (s.pc.toNat ≤ 0xFFE →
      step s =
        match exec (decodeWith s.params.decodeMode
            (readByte s s.pc.toNat ++ readByte s (s.pc.toNat + 1)))
          { s with pc := s.pc + 2, rand := Config.rand s.steps, steps := s.steps + 1 } with
        | .next u =>
          .next { u with dt := if 0 < u.dt.toNat then u.dt - 1 else u.dt
                         st := if 0 < u.st.toNat then u.st - 1 else u.st }
        | .fault f => .fault f
        | .refused e => .refused e) ∧
    (∀ w, decodeWith .loose w = decodeWord w)

/-- R53: the fetched word is the byte at PC times 256 plus the byte at PC + 1. -/
def Obligations.FetchIsBigEndian : Prop :=
  ∀ s : State, s.pc.toNat ≤ 0xFFE →
    ∃ w, fetch s = some w ∧ w.toNat = 256 * (readByte s s.pc.toNat).toNat + (readByte s (s.pc.toNat + 1)).toNat

/-- R212: a Step raises the fetch fault exactly when PC > 0xFFE, and with PC. -/
def Obligations.FetchFaultsExactlyPastTheMemory : Prop :=
  ∀ (s : State) (a : Word), step s = .fault (.fetchAddress a) ↔ 0xFFE < s.pc.toNat ∧ a = s.pc

/-- R211, R213 to R216, R219: an instruction raises exactly the fault the table gives it in that state,
and completes exactly when the table gives it none; the cause codes and information words are the
table's. -/
def Obligations.FaultsAreThoseOfTheTable : Prop :=
  (∀ (i : Instr) (s : State) (f : Fault), exec i s = .fault f ↔ tableFault i s = some f) ∧
  (∀ (i : Instr) (s : State), (∃ t, exec i s = .next t) ↔ tableFault i s = none) ∧
  (∀ p : Word, (Fault.fetchAddress p).code = 1 ∧ (Fault.fetchAddress p).info = p) ∧
  (∀ a : Word, (Fault.dataAddress a).code = 2 ∧ (Fault.dataAddress a).info = a) ∧
  (Fault.stackOverflow.code = 3 ∧ Fault.stackOverflow.info = 0) ∧
  (Fault.stackUnderflow.code = 4 ∧ Fault.stackUnderflow.info = 0) ∧
  (∀ k : Word, (Fault.keyIndex k).code = 5 ∧ (Fault.keyIndex k).info = k)

/-- R109: no Step is refused. -/
def Obligations.NoStepIsRefused : Prop := ∀ (s : State) (e : Refusal), step s ≠ .refused e

/-- R105: a Step of the host's either completes, and the state is the one it leaves, or is rejected
with a fault and the state is the one before it. -/
def Obligations.RejectedStepChangesNothing : Prop :=
  ∀ (r : Byte) (s : State),
    (∃ t, stepWith r s = .next t ∧ hostStep (.step r) s = (.ok, t)) ∨
    (∃ f, stepWith r s = .fault f ∧ hostStep (.step r) s = (.fault f, s))

/-- R221: a faulting Step faults again with the same cause and information word, whatever the random
byte is and whatever the host did to the keys. -/
def Obligations.FaultRepeatsWhateverTheKeys : Prop :=
  ∀ (s : State) (r r' : Byte) (f : Fault) (keys : Vector Bool 16),
    stepWith r s = .fault f → stepWith r' { s with key := keys } = .fault f

/-- R110, and R23's table: PC after a completed Step, as a number that never wraps. -/
def Obligations.ProgramCounterAfterAStep : Prop :=
  ∀ (s t : State) (w : Word), fetch s = some w → step s = .next t →
    t.pc.toNat = tablePc (decodeWith s.params.decodeMode w) s

/-- R104: every completed Step takes 1 from each timer above 0, from the value its instruction left. -/
def Obligations.TimersTickInEveryCompletedStep : Prop :=
  ∀ (s t : State) (w : Word), fetch s = some w → step s = .next t →
    t.dt.toNat =
      (match decodeWith s.params.decodeMode w with
        | .ldDtVx x => (readReg s x).toNat
        | _ => s.dt.toNat) - 1 ∧
    t.st.toNat =
      (match decodeWith s.params.decodeMode w with
        | .ldStVx x => (readReg s x).toNat
        | _ => s.st.toNat) - 1

/-- R176: only `LD I`, `ADD I` and `LD F` change I. -/
def Obligations.OnlyTheIndexInstructionsChangeI : Prop :=
  ∀ (s t : State) (w : Word), fetch s = some w → step s = .next t →
    (∀ a, decodeWith s.params.decodeMode w ≠ .ldI a) →
    (∀ x, decodeWith s.params.decodeMode w ≠ .addIVx x) →
    (∀ x, decodeWith s.params.decodeMode w ≠ .ldFVx x) → t.idx = s.idx

/-- R65: a completed Step leaves every byte of memory as it was, but for the bytes `LD B` and `LD [I]`
store to. -/
def Obligations.OnlyTheStoresChangeMemory : Prop :=
  ∀ (s t : State) (w : Word), fetch s = some w → step s = .next t →
    ∀ a, ¬ storedBytes (decodeWith s.params.decodeMode w) s a → readByte t a = readByte s a

/-- R21: a completed Step leaves VF as it was unless its instruction is a flag writer or names VF as its
destination. -/
def Obligations.OnlyFlagWritersChangeVF : Prop :=
  ∀ (s t : State) (w : Word), fetch s = some w → step s = .next t →
    ¬ mayWriteVF (decodeWith s.params.decodeMode w) → readReg t 15 = readReg s 15

/-- R27: only `CLS` and `DRW` change a frame-buffer cell; R24: only `CALL` and `RET` change SP, and only
`CALL` a stack entry; R28: no Step changes a key. -/
def Obligations.DisplayStackAndKeysHaveTheirWriters : Prop :=
  ∀ (s t : State) (w : Word), fetch s = some w → step s = .next t →
    ((∀ x y n, decodeWith s.params.decodeMode w ≠ .drw x y n) → decodeWith s.params.decodeMode w ≠ .cls →
      ∀ r c, readCell t r c = readCell s r c) ∧
    ((∀ a, decodeWith s.params.decodeMode w ≠ .call a) →
      (∀ k, readStack t k = readStack s k) ∧
      (decodeWith s.params.decodeMode w ≠ .ret → t.sp = s.sp)) ∧
    (∀ k, readKey t k = readKey s k) ∧ t.params = s.params ∧ t.steps = s.steps + 1

/-- R108: only `RND` depends on the random byte: any other Step does the same under every byte. -/
def Obligations.OnlyRndReadsTheRandomByte : Prop :=
  ∀ (s t : State) (w : Word) (r r' : Byte), fetch s = some w →
    (∀ x kk, decodeWith s.params.decodeMode w ≠ .rnd x kk) →
    stepWith r s = .next t → stepWith r' s = .next { t with rand := r' }

/-- R26: no instruction reads ST: executed from states that differ in ST alone, an instruction leaves
states that differ in ST alone, and `LD ST` leaves the same state. -/
def Obligations.NoInstructionReadsTheSoundTimer : Prop :=
  ∀ (i : Instr) (s t : State) (b : Byte), exec i s = .next t →
    exec i { s with st := b } =
      .next (match i with
        | .ldStVx _ => t
        | _ => { t with st := b })

/-! ## Invariants -/

/-- From every state of the invariant a Step leads to one of the invariant: memory keeps its canonical
form, PC stays at most 0x10FE and stack entries at most 0x1000, so no PC arithmetic wraps (R23). -/
def Obligations.EveryStepKeepsTheInvariant : Prop :=
  ∀ s t : State, MachineInv s → step s = .next t → MachineInv t

/-- The state after PowerOn has the invariant, with every choice of the parameters. -/
def Obligations.PowerOnHasTheInvariant : Prop := MachineInv State.reset ∧ ∀ p : Params, MachineInv (State.powerOn p)

/-- R244: whatever the host requests, the invariant stays. -/
def Obligations.EveryHostRequestKeepsTheInvariant : Prop :=
  ∀ (q : HostRequest) (s : State), MachineInv s → MachineInv (hostStep q s).2

/-- R23: in every run of host requests from any state of the invariant (PowerOn's is one), the state
reached has it. -/
def Obligations.EveryRunKeepsTheInvariant : Prop :=
  ∀ (qs : List HostRequest) (s : State), MachineInv s →
    MachineInv (hostRun qs s).2 ∧ (hostRun qs s).1.length = qs.length ∧ ∀ r ∈ (hostRun qs s).1, ∀ e, r ≠ .refused e

/-- Memory in its canonical form is determined by what it reads as. -/
def Obligations.EqualContentsAreEqualMemories : Prop :=
  ∀ (font : Vector Byte 80) (m m' : List Host.Cell), Memory.wf font m → Memory.wf font m' →
    (∀ a, Memory.read font m a = Memory.read font m' a) → m = m'

/-! ## Reset, load and the host (10_state.md, 70_reset_and_hazards.md) -/

/-- R34: the state after PowerOn, for every FONT_ROM, and that State.reset is one of them. -/
def Obligations.PowerOnState : Prop :=
  State.reset = State.powerOn defaultParams ∧
  ∀ p : Params,
    (∀ x, readReg (State.powerOn p) x = 0) ∧ (State.powerOn p).idx = 0 ∧ (State.powerOn p).pc = 0x200 ∧
    (State.powerOn p).sp = 0 ∧ (∀ k, readStack (State.powerOn p) k = 0) ∧
    (State.powerOn p).dt = 0 ∧ (State.powerOn p).st = 0 ∧
    (∀ r c, readCell (State.powerOn p) r c = false) ∧ (∀ k, readKey (State.powerOn p) k = false) ∧
    (∀ j : Fin 80, readByte (State.powerOn p) (0x050 + j.val) = p.fontRom[j.val]) ∧
    (∀ a, a < 4096 → (a < 0x050 ∨ 0x0A0 ≤ a) → readByte (State.powerOn p) a = 0)

/-- R35: the state after a successful ResetLoad, from any state. -/
def Obligations.ResetLoadState : Prop :=
  ∀ (image : List Byte) (s : State), image.length ≤ 3584 →
    ∃ t, resetLoad image s = .ok t ∧
      (∀ x, readReg t x = 0) ∧ t.idx = 0 ∧ t.pc = 0x200 ∧ t.sp = 0 ∧ (∀ k, readStack t k = 0) ∧
      t.dt = 0 ∧ t.st = 0 ∧ (∀ r c, readCell t r c = false) ∧ (∀ k, readKey t k = false) ∧
      (∀ j : Fin 80, readByte t (0x050 + j.val) = s.params.fontRom[j.val]) ∧
      (∀ (j : Nat) (h : j < image.length), readByte t (0x200 + j) = image[j]) ∧
      (∀ a, (a < 0x050 ∨ 0x0A0 ≤ a) → (a < 0x200 ∨ 0x200 + image.length ≤ a) → readByte t a = readByte s a)

/-- R242: an image longer than 3584 bytes is rejected with its length and changes no state; an image of
at most 3584 bytes is accepted. -/
def Obligations.OversizedImageIsRejected : Prop :=
  ∀ (image : List Byte) (s : State),
    (3584 < image.length →
      resetLoad image s = .loadTooLarge image.length ∧
      hostStep (.resetLoad image) s = (.loadTooLarge image.length, s)) ∧
    (image.length ≤ 3584 → ∃ t, resetLoad image s = .ok t ∧ hostStep (.resetLoad image) s = (.ok, t))

/-- R14, R16: `set_key(k, b)` sets KEY[k] to b and changes no other key and nothing else; the outputs are
the frame buffer, ST, and the tone, which is on exactly when ST is not 0. -/
def Obligations.HostAccesses : Prop :=
  (∀ (k : Fin 16) (b : Bool) (s : State),
    hostStep (.setKey k b) s = (.ok, setKey k b s) ∧
    readKey (setKey k b s) k = b ∧ (∀ j, j ≠ k → readKey (setKey k b s) j = readKey s j) ∧
    { setKey k b s with key := s.key } = s) ∧
  (∀ s : State, (∀ (r : Fin 32) (c : Fin 64), (readFrameBuffer s)[r.val][c.val] = readCell s r c) ∧
    readSoundTimer s = s.st ∧ (tone s = true ↔ s.st ≠ 0))

/-- R62: after `LD [I], Vx` the word at any two adjacent stored bytes is what a fetch there gives. -/
def Obligations.StoresAreSeenByTheNextFetch : Prop :=
  ∀ (x : Reg) (s t : State) (k : Nat) (h : k + 1 ≤ x.val), exec (.ldMemVx x) s = .next t →
    fetch (setPc t (s.idx + BitVec.ofNat 16 k)) =
      some (readReg s ⟨k, by have := x.isLt; omega⟩ ++ readReg s ⟨k + 1, by have := x.isLt; omega⟩)

/-- A word placed where the next Step fetches is the one it runs, from every state. -/
def Obligations.PlacedWordIsTheOneRun : Prop :=
  ∀ (s : State) (w : Word) (r : Byte),
    stepWith r (s.withFetchWord 16 w.toNat) =
      completeStep (exec (decodeWith s.params.decodeMode w) (beginStep r (s.withFetchWord 16 w.toNat)))

/-! ## Control transfer (41_control_flow.md). PC in `s` is the fetch address plus 2. -/

/-- R120. -/
def Obligations.ReturnPopsTheStack : Prop :=
  Selects 0xF00F 0x000E (fun _ => .ret) ∧
  (∀ s : State, s.sp.val = 0 → exec .ret s = .fault .stackUnderflow) ∧
  (∀ (s : State) (k : Fin 16), s.sp.val = k.val + 1 →
    Completes .ret s fun t => t.sp.val = k.val ∧ t.pc = readStack s k ∧
      (∀ j, readStack t j = readStack s j) ∧ ChangesOnly { pc := true, stack := true } s t)

/-- R121. -/
def Obligations.JumpSetsPC : Prop :=
  Selects 0xF000 0x1000 (fun w => .jp (nnnField w)) ∧
  ∀ (nnn : Addr12) (s : State), Completes (.jp nnn) s fun t =>
    t.pc.toNat = nnn.toNat ∧ ChangesOnly { pc := true } s t

/-- R122. -/
def Obligations.CallPushesTheReturnAddress : Prop :=
  Selects 0xF000 0x2000 (fun w => .call (nnnField w)) ∧
  (∀ (nnn : Addr12) (s : State), s.sp.val = 16 → exec (.call nnn) s = .fault .stackOverflow) ∧
  (∀ (nnn : Addr12) (s : State), s.sp.val < 16 →
    Completes (.call nnn) s fun t => t.sp.val = s.sp.val + 1 ∧ t.pc.toNat = nnn.toNat ∧
      (∀ j, readStack t j = if j.val = s.sp.val then s.pc else readStack s j) ∧
      ChangesOnly { pc := true, stack := true } s t)

/-- R122: a return from any state with the stack a call left goes to the instruction after the call and
gives SP back. -/
def Obligations.CallThenReturnComesBack : Prop :=
  ∀ (nnn : Addr12) (s t u : State), exec (.call nnn) s = .next t → u.sp = t.sp →
    (∀ k, readStack u k = readStack t k) →
    Completes .ret u fun v => v.pc = s.pc ∧ v.sp = s.sp

/-- R123, R124. -/
def Obligations.SkipsOnImmediates : Prop :=
  Selects 0xF000 0x3000 (fun w => .seImm (xField w) (kkField w)) ∧
  Selects 0xF000 0x4000 (fun w => .sneImm (xField w) (kkField w)) ∧
  ∀ (x : Reg) (kk : Byte) (s : State),
    (Completes (.seImm x kk) s fun t =>
      t.pc = (if readReg s x = kk then s.pc + 2 else s.pc) ∧ ChangesOnly { pc := true } s t) ∧
    (Completes (.sneImm x kk) s fun t =>
      t.pc = (if readReg s x = kk then s.pc else s.pc + 2) ∧ ChangesOnly { pc := true } s t)

/-- R125, R126. -/
def Obligations.SkipsOnRegisters : Prop :=
  Selects 0xF000 0x5000 (fun w => .seReg (xField w) (yField w)) ∧
  Selects 0xF000 0x9000 (fun w => .sneReg (xField w) (yField w)) ∧
  ∀ (x y : Reg) (s : State),
    (Completes (.seReg x y) s fun t =>
      t.pc = (if readReg s x = readReg s y then s.pc + 2 else s.pc) ∧ ChangesOnly { pc := true } s t) ∧
    (Completes (.sneReg x y) s fun t =>
      t.pc = (if readReg s x = readReg s y then s.pc else s.pc + 2) ∧ ChangesOnly { pc := true } s t)

/-- R127. -/
def Obligations.JumpWithOffsetAddsV0 : Prop :=
  Selects 0xF000 0xB000 (fun w => .jpV0 (nnnField w)) ∧
  ∀ (nnn : Addr12) (s : State), Completes (.jpV0 nnn) s fun t =>
    t.pc.toNat = nnn.toNat + (readReg s 0).toNat ∧ t.pc.toNat ≤ 0x10FE ∧ ChangesOnly { pc := true } s t

/-! ## Loads, arithmetic, logic, shifts, random (42_alu.md) -/

/-- R140, R141. -/
def Obligations.ImmediateLoadAndAdd : Prop :=
  Selects 0xF000 0x6000 (fun w => .ldImm (xField w) (kkField w)) ∧
  Selects 0xF000 0x7000 (fun w => .addImm (xField w) (kkField w)) ∧
  ∀ (x : Reg) (kk : Byte) (s : State),
    (Completes (.ldImm x kk) s fun t => readReg t x = kk ∧ ChangesOnly { regs := [x] } s t) ∧
    (Completes (.addImm x kk) s fun t =>
      (readReg t x).toNat = ((readReg s x).toNat + kk.toNat) % 256 ∧ ChangesOnly { regs := [x] } s t)

/-- R142 to R145: bit by bit, with VF not touched unless it is V[x]. -/
def Obligations.MoveAndLogicWithoutFlag : Prop :=
  Selects 0xF00F 0x8000 (fun w => .ldReg (xField w) (yField w)) ∧
  Selects 0xF00F 0x8001 (fun w => .orReg (xField w) (yField w)) ∧
  Selects 0xF00F 0x8002 (fun w => .andReg (xField w) (yField w)) ∧
  Selects 0xF00F 0x8003 (fun w => .xorReg (xField w) (yField w)) ∧
  ∀ (x y : Reg) (s : State),
    (Completes (.ldReg x y) s fun t => readReg t x = readReg s y ∧ ChangesOnly { regs := [x] } s t) ∧
    (Completes (.orReg x y) s fun t =>
      (∀ b, (readReg t x).getLsbD b = ((readReg s x).getLsbD b || (readReg s y).getLsbD b)) ∧
      ChangesOnly { regs := [x] } s t) ∧
    (Completes (.andReg x y) s fun t =>
      (∀ b, (readReg t x).getLsbD b = ((readReg s x).getLsbD b && (readReg s y).getLsbD b)) ∧
      ChangesOnly { regs := [x] } s t) ∧
    (Completes (.xorReg x y) s fun t =>
      (∀ b, (readReg t x).getLsbD b = ((readReg s x).getLsbD b ^^ (readReg s y).getLsbD b)) ∧
      ChangesOnly { regs := [x] } s t)

/-- R146, in numbers. -/
def Obligations.AddRecordsTheCarry : Prop :=
  Selects 0xF00F 0x8004 (fun w => .addReg (xField w) (yField w)) ∧
  ∀ (x y : Reg) (s : State), Completes (.addReg x y) s fun t =>
    let sum := (readReg s x).toNat + (readReg s y).toNat
    ResultAndFlag x (sum % 256) (if sum > 255 then 1 else 0) s t ∧ ChangesOnly { regs := [x, 15] } s t

/-- R147, R149, in numbers: the residue of the difference mod 256, and NOT borrow. -/
def Obligations.SubtractRecordsNotBorrow : Prop :=
  Selects 0xF00F 0x8005 (fun w => .sub (xField w) (yField w)) ∧
  Selects 0xF00F 0x8007 (fun w => .subn (xField w) (yField w)) ∧
  ∀ (x y : Reg) (s : State),
    let a := (readReg s x).toNat
    let b := (readReg s y).toNat
    (Completes (.sub x y) s fun t =>
      ResultAndFlag x (((a : Int) - b) % 256).toNat (if a ≥ b then 1 else 0) s t ∧
      ChangesOnly { regs := [x, 15] } s t) ∧
    (Completes (.subn x y) s fun t =>
      ResultAndFlag x (((b : Int) - a) % 256).toNat (if b ≥ a then 1 else 0) s t ∧
      ChangesOnly { regs := [x, 15] } s t)

/-- R148, R150, in numbers: half the source and its bit 0; twice the source mod 256 and its bit 7. The
source is V[x] by the spec's rule and V[y] under the named alternative SHIFT_SOURCE = y (92 D7). -/
def Obligations.ShiftsRecordTheLostBit : Prop :=
  Selects 0xF00F 0x8006 (fun w => .shr (xField w) (yField w)) ∧
  Selects 0xF00F 0x800E (fun w => .shl (xField w) (yField w)) ∧
  ∀ (x y : Reg) (s : State),
    let src := (readReg s (if s.params.shiftSource = .x then x else y)).toNat
    (Completes (.shr x y) s fun t =>
      ResultAndFlag x (src / 2) (src % 2) s t ∧ ChangesOnly { regs := [x, 15] } s t) ∧
    (Completes (.shl x y) s fun t =>
      ResultAndFlag x (src * 2 % 256) (src / 128) s t ∧ ChangesOnly { regs := [x, 15] } s t)

/-- R151: bit by bit, whatever the random byte is. -/
def Obligations.RandomIsMaskedByTheImmediate : Prop :=
  Selects 0xF000 0xC000 (fun w => .rnd (xField w) (kkField w)) ∧
  ∀ (x : Reg) (kk : Byte) (s : State), Completes (.rnd x kk) s fun t =>
    (∀ b, (readReg t x).getLsbD b = (s.rand.getLsbD b && kk.getLsbD b)) ∧
    ChangesOnly { regs := [x] } s t

/-! ## Index register and memory (43_index_memory.md) -/

/-- R170 to R172, in numbers. -/
def Obligations.IndexRegisterWrites : Prop :=
  Selects 0xF000 0xA000 (fun w => .ldI (nnnField w)) ∧
  Selects 0xF0FF 0xF01E (fun w => .addIVx (xField w)) ∧
  Selects 0xF0FF 0xF029 (fun w => .ldFVx (xField w)) ∧
  (∀ (nnn : Addr12) (s : State), Completes (.ldI nnn) s fun t =>
    t.idx.toNat = nnn.toNat ∧ ChangesOnly { idx := true } s t) ∧
  (∀ (x : Reg) (s : State), Completes (.addIVx x) s fun t =>
    t.idx.toNat = (s.idx.toNat + (readReg s x).toNat) % 65536 ∧ ChangesOnly { idx := true } s t) ∧
  (∀ (x : Reg) (s : State), Completes (.ldFVx x) s fun t =>
    t.idx.toNat = 0x050 + 5 * (readReg s x).toNat ∧ ChangesOnly { idx := true } s t)

/-- R173. -/
def Obligations.DecimalDigitsAreStored : Prop :=
  Selects 0xF0FF 0xF033 (fun w => .ldBVx (xField w)) ∧
  (∀ (x : Reg) (s : State), 0xFFF < s.idx.toNat + 2 →
    exec (.ldBVx x) s = .fault (.dataAddress (if 0xFFF < s.idx.toNat then s.idx else 0x1000))) ∧
  (∀ (x : Reg) (s : State), s.idx.toNat + 2 ≤ 0xFFF →
    Completes (.ldBVx x) s fun t =>
      (readByte t s.idx.toNat).toNat = (readReg s x).toNat / 100 ∧
      (readByte t (s.idx.toNat + 1)).toNat = (readReg s x).toNat / 10 % 10 ∧
      (readByte t (s.idx.toNat + 2)).toNat = (readReg s x).toNat % 10 ∧
      ChangesOnly { bytes := fun a => s.idx.toNat ≤ a ∧ a ≤ s.idx.toNat + 2 } s t)

/-- R174. -/
def Obligations.RegistersAreStored : Prop :=
  Selects 0xF0FF 0xF055 (fun w => .ldMemVx (xField w)) ∧
  (∀ (x : Reg) (s : State), 0xFFF < s.idx.toNat + x.val →
    exec (.ldMemVx x) s = .fault (.dataAddress (if 0xFFF < s.idx.toNat then s.idx else 0x1000))) ∧
  (∀ (x : Reg) (s : State), s.idx.toNat + x.val ≤ 0xFFF →
    Completes (.ldMemVx x) s fun t =>
      (∀ k : Reg, k ≤ x → readByte t (s.idx.toNat + k.val) = readReg s k) ∧
      ChangesOnly { bytes := fun a => s.idx.toNat ≤ a ∧ a ≤ s.idx.toNat + x.val } s t)

/-- R175: registers above x are unchanged. -/
def Obligations.RegistersAreLoaded : Prop :=
  Selects 0xF0FF 0xF065 (fun w => .ldVxMem (xField w)) ∧
  (∀ (x : Reg) (s : State), 0xFFF < s.idx.toNat + x.val →
    exec (.ldVxMem x) s = .fault (.dataAddress (if 0xFFF < s.idx.toNat then s.idx else 0x1000))) ∧
  (∀ (x : Reg) (s : State), s.idx.toNat + x.val ≤ 0xFFF →
    Completes (.ldVxMem x) s fun t =>
      (∀ k : Reg, readReg t k = if k ≤ x then readByte s (s.idx.toNat + k.val) else readReg s k) ∧
      ChangesOnly { regs := (List.finRange 16).filter (fun k => k ≤ x) } s t)

/-- R175: registers 0 to x stored and then loaded from the same place, with I and the stored bytes
unchanged in between, have their values again, whatever was done to the registers. -/
def Obligations.StoreThenLoadRestoresRegisters : Prop :=
  ∀ (x : Reg) (s t u : State), exec (.ldMemVx x) s = .next t → u.idx = s.idx →
    (∀ k : Reg, k ≤ x → readByte u (s.idx.toNat + k.val) = readByte t (s.idx.toNat + k.val)) →
    Completes (.ldVxMem x) u fun v => ∀ k : Reg, k ≤ x → readReg v k = readReg s k

/-! ## Display, keypad and timers (44_display_keypad_timers.md) -/

/-- R190, with its law: a second `CLS` changes nothing. -/
def Obligations.ClearTurnsEveryCellOff : Prop :=
  Selects 0xF00F 0x0000 (fun _ => .cls) ∧
  ∀ s : State, Completes .cls s fun t =>
    (∀ r c, readCell t r c = false) ∧ ChangesOnly { display := true } s t ∧ exec .cls t = .next t

/-- R191, under both edge policies: each cell is XORed with the sprite's bit over it, VF is 1 exactly
when an on cell was under a 1 bit, and the fault is that of the last row's address. The bit order is
R191's, bit 7 leftmost, which the spec marks as general knowledge (log entry 5). -/
def Obligations.DrawXorsTheSprite : Prop :=
  Selects 0xF000 0xD000 (fun w => .drw (xField w) (yField w) (nField w)) ∧
  (∀ (x y : Reg) (n : Nibble) (s : State), 0 < n.toNat → 0xFFF < s.idx.toNat + n.toNat - 1 →
    exec (.drw x y n) s = .fault (.dataAddress (if 0xFFF < s.idx.toNat then s.idx else 0x1000))) ∧
  (∀ (x y : Reg) (n : Nibble) (s : State), n.toNat = 0 ∨ s.idx.toNat + n.toNat - 1 ≤ 0xFFF →
    Completes (.drw x y n) s fun t =>
      (∀ r c, readCell t r c = true ↔ ¬ (readCell s r c = true ↔ spriteCovers s x y n r c)) ∧
      ((∃ r c, readCell s r c = true ∧ spriteCovers s x y n r c) → readReg t 15 = 1) ∧
      ((¬ ∃ r c, readCell s r c = true ∧ spriteCovers s x y n r c) → readReg t 15 = 0) ∧
      ChangesOnly { regs := [15], display := true } s t)

/-- R191: the same sprite drawn twice at the same place gives the frame buffer back, and the second
draw collides when the first turned a cell on. -/
def Obligations.DrawingTwiceRestoresTheFrameBuffer : Prop :=
  ∀ (x y : Reg) (n : Nibble) (s t u : State), x ≠ 15 → y ≠ 15 →
    exec (.drw x y n) s = .next t → exec (.drw x y n) t = .next u →
    (∀ r c, readCell u r c = readCell s r c) ∧
    ((∃ r c, readCell s r c = false ∧ readCell t r c = true) → readReg u 15 = 1)

/-- R192, R193. -/
def Obligations.SkipsOnKeys : Prop :=
  Selects 0xF00F 0xE00E (fun w => .skp (xField w)) ∧ Selects 0xF00F 0xE001 (fun w => .sknp (xField w)) ∧
  (∀ (x : Reg) (s : State), 15 < (readReg s x).toNat →
    exec (.skp x) s = .fault (.keyIndex (BitVec.ofNat 16 (readReg s x).toNat)) ∧
    exec (.sknp x) s = .fault (.keyIndex (BitVec.ofNat 16 (readReg s x).toNat))) ∧
  (∀ (x : Reg) (k : Fin 16) (s : State), (readReg s x).toNat = k.val →
    (Completes (.skp x) s fun t =>
      t.pc = (if readKey s k = true then s.pc + 2 else s.pc) ∧ ChangesOnly { pc := true } s t) ∧
    (Completes (.sknp x) s fun t =>
      t.pc = (if readKey s k = true then s.pc else s.pc + 2) ∧ ChangesOnly { pc := true } s t))

/-- R195. -/
def Obligations.WaitForKeyPolls : Prop :=
  Selects 0xF0FF 0xF00A (fun w => .ldVxK (xField w)) ∧
  (∀ (x : Reg) (k : Fin 16) (s : State), readKey s k = true → (∀ j, j < k → readKey s j = false) →
    Completes (.ldVxK x) s fun t => (readReg t x).toNat = k.val ∧ ChangesOnly { regs := [x] } s t) ∧
  (∀ (x : Reg) (s : State), (∀ k, readKey s k = false) →
    Completes (.ldVxK x) s fun t => t.pc = s.pc - 2 ∧ ChangesOnly { pc := true } s t)

/-- R194, R196, R197, for the execute phase: the tick is the Step's (R104). -/
def Obligations.TimerLoadsAndReads : Prop :=
  Selects 0xF0FF 0xF007 (fun w => .ldVxDt (xField w)) ∧
  Selects 0xF0FF 0xF015 (fun w => .ldDtVx (xField w)) ∧
  Selects 0xF0FF 0xF018 (fun w => .ldStVx (xField w)) ∧
  ∀ (x : Reg) (s : State),
    (Completes (.ldVxDt x) s fun t => readReg t x = s.dt ∧ ChangesOnly { regs := [x] } s t) ∧
    (Completes (.ldDtVx x) s fun t => t.dt = readReg s x ∧ ChangesOnly { dt := true } s t) ∧
    (Completes (.ldStVx x) s fun t => t.st = readReg s x ∧ ChangesOnly { st := true } s t)

/-- R246: `LD DT` and, in the next Step, `LD Vx, DT` reads the loaded value minus 1, or 0. -/
def Obligations.DelayTimerReadsBackOneLess : Prop :=
  ∀ (s t u : State) (w w' : Word) (x y : Reg),
    fetch s = some w → decodeWith s.params.decodeMode w = .ldDtVx x → step s = .next t →
    fetch t = some w' → decodeWith t.params.decodeMode w' = .ldVxDt y → step t = .next u →
    (readReg u y).toNat = (readReg s x).toNat - 1

/-- R250, R121, R195: a Step that executes a jump to itself, or a wait that finds no key, changes nothing
but the timers, which tick (and the model's record of the random byte and of the Steps). -/
def Obligations.SelfJumpAndWaitOnlyTick : Prop :=
  ∀ (s : State) (r : Byte) (w : Word), fetch s = some w →
    (∃ nnn : Addr12, decodeWith s.params.decodeMode w = .jp nnn ∧ nnn.toNat = s.pc.toNat) ∨
      (∃ x, decodeWith s.params.decodeMode w = .ldVxK x ∧ ∀ k, readKey s k = false) →
    stepWith r s = .next { s with
      dt := if 0 < s.dt.toNat then s.dt - 1 else s.dt
      st := if 0 < s.st.toNat then s.st - 1 else s.st
      rand := r
      steps := s.steps + 1 }

/-- R107: an unmapped word executes as nothing at all, and the Step around it leaves PC at A + 2 and the
timers ticked. -/
def Obligations.UnknownOpcodeDoesNothing : Prop :=
  (∀ (w : Word) (s : State), exec (.nopUnknown w) s = .next s) ∧
  ∀ (r : Byte) (w : Word) (s : State), fetch s = some w → unmapped w = true →
    ∃ t, stepWith r s = .next t ∧ t.pc.toNat = s.pc.toNat + 2 ∧
      t.dt.toNat = s.dt.toNat - 1 ∧ t.st.toNat = s.st.toNat - 1 ∧
      { t with pc := s.pc, dt := s.dt, st := s.st, rand := s.rand, steps := s.steps } = s
end

