-- ==== Sys2Proof/Laws/Decode.lean ====
section
/-! SUPPORT. The fields of encoded words, and that masking a field's own bits in leaves it alone. -/

namespace Sys2Proof

/-! ## Fields under a mask -/

theorem topField_and (m w : Word) (hm : topField m = 15#4) : topField (w &&& m) = topField w := by
  unfold topField at *
  rw [BitVec.extractLsb'_and, hm]; exact BitVec.and_allOnes

theorem nField_and (m w : Word) (hm : nField m = 15#4) : nField (w &&& m) = nField w := by
  unfold nField at *
  rw [BitVec.extractLsb'_and, hm]; exact BitVec.and_allOnes

theorem kkField_and (m w : Word) (hm : kkField m = 255#8) : kkField (w &&& m) = kkField w := by
  unfold kkField at *
  rw [BitVec.extractLsb'_and, hm]; exact BitVec.and_allOnes

/-! ## Fields of the four encoding shapes (30_encoding.md R72) -/

variable (t : Nibble) (x y : Reg) (n : Nibble) (kk : Byte) (nnn : Addr12)

/-- The bits of a word of format A. -/
theorem getLsbD_encodeA (i : Nat) :
    (encodeA t nnn).getLsbD i = if i < 12 then nnn.getLsbD i else t.getLsbD (i - 12) :=
  BitVec.getLsbD_append

/-- The bits of a word with `x` and `kk`. -/
theorem getLsbD_encodeXK (i : Nat) :
    (encodeXK t x kk).getLsbD i =
      if i < 8 then kk.getLsbD i
      else if i < 12 then (regBits x).getLsbD (i - 8) else t.getLsbD (i - 12) := by
  have h1 : (encodeXK t x kk).getLsbD i =
      if i < 12 then (regBits x ++ kk).getLsbD i else t.getLsbD (i - 12) := BitVec.getLsbD_append
  rw [h1, BitVec.getLsbD_append]
  split_ifs <;> first | rfl | omega

/-- The bits of a word with `x`, `y` and `n`. -/
theorem getLsbD_encodeXYN (i : Nat) :
    (encodeXYN t x y n).getLsbD i =
      if i < 4 then n.getLsbD i
      else if i < 8 then (regBits y).getLsbD (i - 4)
      else if i < 12 then (regBits x).getLsbD (i - 8) else t.getLsbD (i - 12) := by
  have h1 : (encodeXYN t x y n).getLsbD i =
      if i < 12 then (regBits x ++ (regBits y ++ n)).getLsbD i else t.getLsbD (i - 12) :=
    BitVec.getLsbD_append
  have h2 : (regBits x ++ (regBits y ++ n)).getLsbD i =
      if i < 8 then (regBits y ++ n).getLsbD i else (regBits x).getLsbD (i - 8) :=
    BitVec.getLsbD_append
  rw [h1, h2, BitVec.getLsbD_append]
  split_ifs <;> first | rfl | omega

@[simp] theorem topField_encodeA : topField (encodeA t nnn) = t := by
  ext i hi; simp [topField, getLsbD_encodeA, hi]

@[simp] theorem nnnField_encodeA : nnnField (encodeA t nnn) = nnn := by
  ext i hi; simp [nnnField, getLsbD_encodeA, hi]

@[simp] theorem topField_encodeXK : topField (encodeXK t x kk) = t := by
  ext i hi
  simp [topField, getLsbD_encodeXK, hi, show ¬ 12 + i < 8 by omega]

@[simp] theorem xField_encodeXK : xField (encodeXK t x kk) = x := by
  have : (encodeXK t x kk).extractLsb' 8 4 = regBits x := by
    ext i hi
    simp [getLsbD_encodeXK, hi, show 8 + i < 12 by omega]
  rw [xField, this]; rfl

@[simp] theorem kkField_encodeXK : kkField (encodeXK t x kk) = kk := by
  ext i hi
  simp [kkField, getLsbD_encodeXK, hi]

@[simp] theorem topField_encodeXYN : topField (encodeXYN t x y n) = t := by
  ext i hi
  simp [topField, getLsbD_encodeXYN, hi, show ¬ 12 + i < 4 by omega, show ¬ 12 + i < 8 by omega]

@[simp] theorem xField_encodeXYN : xField (encodeXYN t x y n) = x := by
  have : (encodeXYN t x y n).extractLsb' 8 4 = regBits x := by
    ext i hi
    simp [getLsbD_encodeXYN, hi, show ¬ 8 + i < 4 by omega, show 8 + i < 12 by omega]
  rw [xField, this]; rfl

@[simp] theorem yField_encodeXYN : yField (encodeXYN t x y n) = y := by
  have : (encodeXYN t x y n).extractLsb' 4 4 = regBits y := by
    ext i hi
    simp [getLsbD_encodeXYN, hi, show 4 + i < 8 by omega]
  rw [yField, this]; rfl

@[simp] theorem nField_encodeXYN : nField (encodeXYN t x y n) = n := by
  ext i hi
  simp [nField, getLsbD_encodeXYN, hi]

/-- In the shapes with `x` and `kk`, the low nibble is that of `kk`. -/
theorem nField_encodeXK : nField (encodeXK t x kk) = kk.extractLsb' 0 4 := by
  ext i hi
  simp [nField, getLsbD_encodeXK, show i < 8 by omega]

/-- The two bytes of a word make the word again (20_memory.md R53). -/
theorem wordOfBytes_bytesOfWord (w : Word) : wordOfBytes (w.extractLsb' 8 8) (w.extractLsb' 0 8) = w := by
  have h (i : Nat) : (wordOfBytes (w.extractLsb' 8 8) (w.extractLsb' 0 8)).getLsbD i =
      if i < 8 then (w.extractLsb' 0 8).getLsbD i else (w.extractLsb' 8 8).getLsbD (i - 8) :=
    BitVec.getLsbD_append
  refine BitVec.eq_of_getLsbD_eq fun i hi => ?_
  rw [h]
  by_cases h8 : i < 8
  · simp [h8]
  · simp [h8, show i - 8 < 8 by omega, show 8 + (i - 8) = i by omega]

end Sys2Proof
end

