-- ==== Sys2Proof/Laws/Display.lean ====
section
/-! SUPPORT. Drawing a sprite: the drawing loop flips each cell of a list once, so that a cell ends flipped exactly when it is in the list, and the collision is one of them having been on. -/

namespace Sys2Proof.Machine

/-- The cell at a row and column of a frame buffer. -/
def fbCell (fb : Vector (Vector Bool 64) 32) (p : Fin 32 × Fin 64) : Bool :=
  (fb[p.1.val]'p.1.isLt)[p.2.val]'p.2.isLt

theorem fbCell_fbSet (fb : Vector (Vector Bool 64) 32) (r : Fin 32) (c : Fin 64) (b : Bool)
    (p : Fin 32 × Fin 64) : fbCell (fbSet fb r c b) p = if p = (r, c) then b else fbCell fb p := by
  obtain ⟨pr, pc⟩ := p
  simp only [fbCell, fbSet, Prod.mk.injEq]
  by_cases hr : pr = r
  · subst hr
    by_cases hc : pc = c
    · subst hc; simp
    · simp [hc, Fin.val_ne_of_ne (Ne.symm hc)]
  · simp [hr, Fin.val_ne_of_ne (Ne.symm hr)]

/-- Flip one cell and record whether it was on. -/
def flipCell (k : Canvas) (p : Fin 32 × Fin 64) : Canvas :=
  (fbSet k.1 p.1 p.2 (!fbCell k.1 p), k.2 || fbCell k.1 p)

/-- The cell pixel `c` of a sprite row flips, if any. -/
def pixelTarget (edge : SpriteEdge) (row col0 : Nat) (b : Byte) (c : Nat) : Option (Fin 32 × Fin 64) :=
  if spriteBit b c then cellAt edge row (col0 + c) else none

/-- The cells a sprite row flips, from the left. -/
def rowTargets (edge : SpriteEdge) (row col0 : Nat) (b : Byte) : List (Fin 32 × Fin 64) :=
  [0, 1, 2, 3, 4, 5, 6, 7].filterMap (pixelTarget edge row col0 b)

/-- The cells a sprite flips, from the top. -/
def spriteTargets (edge : SpriteEdge) (col0 : Nat) : Nat → List Byte → List (Fin 32 × Fin 64)
  | _, [] => []
  | row, b :: bs => rowTargets edge row col0 b ++ spriteTargets edge col0 (row + 1) bs

theorem drawPixel_eq (edge : SpriteEdge) (row col0 : Nat) (b : Byte) (k : Canvas) (c : Nat) :
    drawPixel edge row col0 b k c = match pixelTarget edge row col0 b c with
      | some p => flipCell k p
      | none => k := by
  unfold drawPixel pixelTarget flipCell fbCell
  by_cases h : spriteBit b c <;> simp only [h, if_true, if_false, Bool.false_eq_true]
  split <;> simp_all

theorem drawRow_eq (edge : SpriteEdge) (row col0 : Nat) (k : Canvas) (b : Byte) :
    drawRow edge row col0 k b = (rowTargets edge row col0 b).foldl flipCell k := by
  unfold drawRow rowTargets
  rw [List.foldl_filterMap]
  congr 1
  funext k c
  rw [drawPixel_eq]
  cases pixelTarget edge row col0 b c <;> rfl

/-- The drawing loop flips the cells of `spriteTargets` in turn. -/
theorem drawRows_eq (edge : SpriteEdge) (col0 row : Nat) (k : Canvas) (bs : List Byte) :
    drawRows edge col0 row k bs = (spriteTargets edge col0 row bs).foldl flipCell k := by
  induction bs generalizing row k with
  | nil => rfl
  | cons b bs ih => rw [drawRows, ih, drawRow_eq, spriteTargets, List.foldl_append]

/-- Flipping cells, none twice: a cell ends flipped exactly when it is one of them. -/
theorem foldl_flipCell_cell (ps : List (Fin 32 × Fin 64)) (h : ps.Nodup) (k : Canvas)
    (q : Fin 32 × Fin 64) :
    fbCell (ps.foldl flipCell k).1 q = (fbCell k.1 q ^^ decide (q ∈ ps)) := by
  induction ps generalizing k with
  | nil => simp
  | cons p ps ih =>
    obtain ⟨hp, hps⟩ := List.nodup_cons.1 h
    rw [List.foldl_cons, ih hps]
    simp only [flipCell, fbCell_fbSet]
    by_cases hq : q = p
    · subst hq; simp [hp]
    · simp [hq]

/-- Flipping cells, none twice: a collision is one of them having been on. -/
theorem foldl_flipCell_hit (ps : List (Fin 32 × Fin 64)) (h : ps.Nodup) (k : Canvas) :
    (ps.foldl flipCell k).2 = (k.2 || ps.any (fbCell k.1)) := by
  induction ps generalizing k with
  | nil => simp
  | cons p ps ih =>
    obtain ⟨hp, hps⟩ := List.nodup_cons.1 h
    rw [List.foldl_cons, ih hps]
    simp only [flipCell, List.any_cons, Bool.or_assoc]
    congr 2
    rw [Bool.eq_iff_iff, List.any_eq_true, List.any_eq_true]
    refine exists_congr fun q => and_congr_right fun hq => ?_
    rw [fbCell_fbSet, if_neg]
    rintro rfl; exact hp hq

/-- A pixel's cell lies at its row mod 32 and its column mod 64, whichever edge policy. -/
theorem cellAt_eq_some (edge : SpriteEdge) (row col : Nat) (p : Fin 32 × Fin 64)
    (h : cellAt edge row col = some p) : p.1.val = row % 32 ∧ p.2.val = col % 64 := by
  cases edge with
  | wrap => simp only [cellAt, Option.some.injEq] at h; subst h; exact ⟨rfl, rfl⟩
  | clip =>
    simp only [cellAt] at h
    split at h
    · rename_i hlt
      simp only [Option.some.injEq] at h; subst h
      exact ⟨(Nat.mod_eq_of_lt hlt.1).symm, (Nat.mod_eq_of_lt hlt.2).symm⟩
    · simp at h

theorem mem_rowTargets (edge : SpriteEdge) (row col0 : Nat) (b : Byte) (p : Fin 32 × Fin 64) :
    p ∈ rowTargets edge row col0 b ↔ ∃ c < 8, spriteBit b c = true ∧ cellAt edge row (col0 + c) = some p := by
  simp only [rowTargets, List.mem_filterMap, pixelTarget]
  constructor
  · rintro ⟨c, hc, h⟩
    refine ⟨c, ?_, ?_⟩
    · simp at hc; omega
    · split at h
      · exact ⟨‹_›, h⟩
      · simp at h
  · rintro ⟨c, hc, hb, h⟩
    refine ⟨c, ?_, by simp [hb, h]⟩
    simp; omega

/-- The cells a sprite flips: those of its 1 bits. -/
theorem mem_spriteTargets (edge : SpriteEdge) (col0 row : Nat) (bs : List Byte) (p : Fin 32 × Fin 64) :
    p ∈ spriteTargets edge col0 row bs ↔ ∃ k, ∃ h : k < bs.length, ∃ c < 8,
      spriteBit bs[k] c = true ∧ cellAt edge (row + k) (col0 + c) = some p := by
  induction bs generalizing row with
  | nil => simp [spriteTargets]
  | cons b bs ih =>
    rw [spriteTargets, List.mem_append, mem_rowTargets, ih]
    constructor
    · rintro (⟨c, hc, h⟩ | ⟨k, hk, c, hc, h⟩)
      · exact ⟨0, by simp, c, hc, h⟩
      · exact ⟨k + 1, by simpa using hk, c, hc, by simpa [Nat.add_assoc, Nat.add_comm 1 k] using h⟩
    · rintro ⟨k, hk, c, hc, h⟩
      cases k with
      | zero => exact .inl ⟨c, hc, h⟩
      | succ k =>
        exact .inr ⟨k, by simpa using hk, c, hc, by simpa [Nat.add_assoc, Nat.add_comm 1 k] using h⟩

theorem nodup_rowTargets (edge : SpriteEdge) (row col0 : Nat) (b : Byte) :
    (rowTargets edge row col0 b).Nodup := by
  unfold rowTargets
  refine List.Pairwise.filterMap (R := fun c c' => c < c' ∧ c' < c + 8) _ ?_ (by decide)
  rintro c c' ⟨h1, h2⟩ p hp q hq rfl
  have hc : cellAt edge row (col0 + c) = some p := by
    simp only [pixelTarget] at hp; split at hp
    · exact hp
    · simp at hp
  have hc' : cellAt edge row (col0 + c') = some p := by
    simp only [pixelTarget] at hq; split at hq
    · exact hq
    · simp at hq
  have := (cellAt_eq_some _ _ _ _ hc).2
  have := (cellAt_eq_some _ _ _ _ hc').2
  omega

/-- No cell is visited twice in one sprite of at most 32 rows (44_display_keypad_timers.md R191). -/
theorem nodup_spriteTargets (edge : SpriteEdge) (col0 row : Nat) (bs : List Byte) (h : bs.length ≤ 32) :
    (spriteTargets edge col0 row bs).Nodup := by
  induction bs generalizing row with
  | nil => exact .nil
  | cons b bs ih =>
    simp only [List.length_cons] at h
    rw [spriteTargets, List.nodup_append]
    refine ⟨nodup_rowTargets _ _ _ _, ih _ (by omega), ?_⟩
    rintro p hp q hq rfl
    obtain ⟨c, -, -, hc⟩ := (mem_rowTargets _ _ _ _ _).1 hp
    obtain ⟨k, hk, c', -, -, hc'⟩ := (mem_spriteTargets _ _ _ _ _).1 hq
    have := (cellAt_eq_some _ _ _ _ hc).1
    have := (cellAt_eq_some _ _ _ _ hc').1
    omega

end Sys2Proof.Machine
end

