-- ==== Sys2Proof/Laws/Memory.lean ====
section
/-! SUPPORT. The laws of memory: a read after a write, the canonical form and that every operation keeps it, and that equal contents are equal lists. -/

namespace Sys2Proof.Machine

variable (font : Vector Byte 80)

@[simp] theorem Memory.lookup_insert (a : Nat) (x : Byte) (m : List Host.Cell) (b : Nat) :
    Memory.lookup b (Memory.insert a x m) = if b = a then some x else Memory.lookup b m := by
  induction m with
  | nil => simp [Memory.insert, Memory.lookup]
  | cons p m ih =>
    obtain ⟨c, w⟩ := p
    simp only [Memory.insert]
    split
    · simp [Memory.lookup]
    · split <;> simp only [Memory.lookup, ih] <;> grind

@[simp] theorem Memory.lookup_erase (a : Nat) (m : List Host.Cell) (b : Nat) :
    Memory.lookup b (Memory.erase a m) = if b = a then none else Memory.lookup b m := by
  induction m with
  | nil => simp [Memory.erase, Memory.lookup]
  | cons p m ih =>
    obtain ⟨c, w⟩ := p
    simp only [Memory.erase]
    split <;> simp only [Memory.lookup, ih] <;> grind

/-- Read after write. -/
theorem Memory.read_write (m : List Host.Cell) (a b : Nat) (x : Byte) :
    Memory.read font (Memory.write font m a x) b = if b = a then x else Memory.read font m b := by
  unfold Memory.read Memory.write
  by_cases h : b = a <;> by_cases hx : x = Memory.initial font a <;> simp [h, hx]

/-- What bytes stored from an address upward leave at every address. -/
theorem Memory.read_writeList (m : List Host.Cell) (a b : Nat) (xs : List Byte) :
    Memory.read font (Memory.writeList font m a xs) b =
      if h : a ≤ b ∧ b - a < xs.length then xs[b - a]'h.2 else Memory.read font m b := by
  induction xs generalizing m a with
  | nil => simp [Memory.writeList]
  | cons x xs ih =>
    rw [Memory.writeList, ih, Memory.read_write]
    by_cases hb : b = a
    · subst hb; simp
    · by_cases h1 : a + 1 ≤ b ∧ b - (a + 1) < xs.length
      · have h2 : a ≤ b ∧ b - a < (x :: xs).length := by simp; omega
        have h3 : b - a = (b - (a + 1)) + 1 := by omega
        rw [dif_pos h1, dif_pos h2]
        simp only [h3, List.getElem_cons_succ]
      · have h2 : ¬ (a ≤ b ∧ b - a < (x :: xs).length) := by simp; omega
        rw [dif_neg h1, dif_neg h2, if_neg hb]

theorem Memory.mem_insert (a : Nat) (x : Byte) (m : List Host.Cell) (p : Host.Cell)
    (h : p ∈ Memory.insert a x m) : p = (a, x) ∨ p ∈ m := by
  induction m with
  | nil => simpa [Memory.insert] using h
  | cons q m ih =>
    obtain ⟨c, w⟩ := q
    simp only [Memory.insert] at h
    split at h
    · simpa using h
    · split at h
      · rcases List.mem_cons.1 h with h | h
        · exact .inl h
        · exact .inr (List.mem_cons_of_mem _ h)
      · rcases List.mem_cons.1 h with h | h
        · exact .inr (by simp [h])
        · exact (ih h).imp_right (List.mem_cons_of_mem _)

theorem Memory.mem_erase (a : Nat) (m : List Host.Cell) (p : Host.Cell)
    (h : p ∈ Memory.erase a m) : p ∈ m := by
  induction m with
  | nil => simp [Memory.erase] at h
  | cons q m ih =>
    obtain ⟨c, w⟩ := q
    simp only [Memory.erase] at h
    split at h
    · exact List.mem_cons_of_mem _ (ih h)
    · rcases List.mem_cons.1 h with h | h
      · simp [h]
      · exact List.mem_cons_of_mem _ (ih h)

theorem Memory.pairwise_insert (a : Nat) (x : Byte) (m : List Host.Cell)
    (h : m.Pairwise (fun p q => p.1 < q.1)) :
    (Memory.insert a x m).Pairwise (fun p q => p.1 < q.1) := by
  induction m with
  | nil => simp [Memory.insert]
  | cons q m ih =>
    obtain ⟨c, w⟩ := q
    obtain ⟨hc, hm⟩ := List.pairwise_cons.1 h
    simp only [Memory.insert]
    split
    · refine List.pairwise_cons.2 ⟨fun p hp => ?_, h⟩
      rcases List.mem_cons.1 hp with rfl | hp
      · assumption
      · exact Nat.lt_trans ‹_› (hc p hp)
    · split
      · subst a; exact List.pairwise_cons.2 ⟨hc, hm⟩
      · refine List.pairwise_cons.2 ⟨fun p hp => ?_, ih hm⟩
        rcases Memory.mem_insert _ _ _ _ hp with rfl | hp
        · simp only; omega
        · exact hc p hp

theorem Memory.pairwise_erase (a : Nat) (m : List Host.Cell)
    (h : m.Pairwise (fun p q => p.1 < q.1)) :
    (Memory.erase a m).Pairwise (fun p q => p.1 < q.1) := by
  induction m with
  | nil => simp [Memory.erase]
  | cons q m ih =>
    obtain ⟨c, w⟩ := q
    obtain ⟨hc, hm⟩ := List.pairwise_cons.1 h
    simp only [Memory.erase]
    split
    · exact ih hm
    · exact List.pairwise_cons.2 ⟨fun p hp => hc p (Memory.mem_erase _ _ _ hp), ih hm⟩

/-- A store inside the memory keeps the canonical form. -/
theorem Memory.wf_write (m : List Host.Cell) (a : Nat) (x : Byte) (h : Memory.wf font m)
    (ha : a < Config.memSize) : Memory.wf font (Memory.write font m a x) := by
  unfold Memory.write
  split
  · exact ⟨Memory.pairwise_erase _ _ h.1, fun p hp => h.2 p (Memory.mem_erase _ _ _ hp)⟩
  · refine ⟨Memory.pairwise_insert _ _ _ h.1, fun p hp => ?_⟩
    rcases Memory.mem_insert _ _ _ _ hp with rfl | hp
    · exact ⟨ha, ‹_›⟩
    · exact h.2 p hp

/-- Stores inside the memory keep the canonical form. -/
theorem Memory.wf_writeList (m : List Host.Cell) (a : Nat) (xs : List Byte) (h : Memory.wf font m)
    (ha : a + xs.length ≤ Config.memSize) : Memory.wf font (Memory.writeList font m a xs) := by
  induction xs generalizing m a with
  | nil => exact h
  | cons x xs ih =>
    simp only [List.length_cons] at ha
    exact ih _ _ (Memory.wf_write font m a x h (by omega)) (by omega)

/-- Memory at reset is in its canonical form. -/
theorem Memory.wf_nil : Memory.wf font [] := ⟨.nil, by simp⟩

end Sys2Proof.Machine
end

