-- ==== Sys2Proof/Laws/State.lean ====
section
/-! SUPPORT. What each state update leaves in each field, and what each accessor reads after it: one lemma a field and update, so that no proof unfolds a record update. -/

namespace Sys2Proof.Machine

variable (s : State)

/-! ## writeReg -/

@[simp] theorem writeReg_v (x : Reg) (b : Byte) : (writeReg s x b).v = s.v.set x.val b x.isLt := rfl
@[simp] theorem writeReg_idx (x : Reg) (b : Byte) : (writeReg s x b).idx = s.idx := rfl
@[simp] theorem writeReg_pc (x : Reg) (b : Byte) : (writeReg s x b).pc = s.pc := rfl
@[simp] theorem writeReg_sp (x : Reg) (b : Byte) : (writeReg s x b).sp = s.sp := rfl
@[simp] theorem writeReg_stk (x : Reg) (b : Byte) : (writeReg s x b).stk = s.stk := rfl
@[simp] theorem writeReg_dt (x : Reg) (b : Byte) : (writeReg s x b).dt = s.dt := rfl
@[simp] theorem writeReg_st (x : Reg) (b : Byte) : (writeReg s x b).st = s.st := rfl
@[simp] theorem writeReg_fb (x : Reg) (b : Byte) : (writeReg s x b).fb = s.fb := rfl
@[simp] theorem writeReg_key (x : Reg) (b : Byte) : (writeReg s x b).key = s.key := rfl
@[simp] theorem writeReg_mem (x : Reg) (b : Byte) : (writeReg s x b).mem = s.mem := rfl
@[simp] theorem writeReg_rand (x : Reg) (b : Byte) : (writeReg s x b).rand = s.rand := rfl
@[simp] theorem writeReg_steps (x : Reg) (b : Byte) : (writeReg s x b).steps = s.steps := rfl
@[simp] theorem writeReg_params (x : Reg) (b : Byte) : (writeReg s x b).params = s.params := rfl
@[simp] theorem readByte_writeReg (x : Reg) (b : Byte) (p : Nat) : readByte (writeReg s x b) p = readByte s p := rfl
@[simp] theorem readStack_writeReg (x : Reg) (b : Byte) (i : Fin 16) : readStack (writeReg s x b) i = readStack s i := rfl
@[simp] theorem readCell_writeReg (x : Reg) (b : Byte) (row : Fin 32) (col : Fin 64) : readCell (writeReg s x b) row col = readCell s row col := rfl
@[simp] theorem readKey_writeReg (x : Reg) (b : Byte) (i : Fin 16) : readKey (writeReg s x b) i = readKey s i := rfl

/-! ## setIdx -/

@[simp] theorem setIdx_v (w : Word) : (setIdx s w).v = s.v := rfl
@[simp] theorem setIdx_idx (w : Word) : (setIdx s w).idx = w := rfl
@[simp] theorem setIdx_pc (w : Word) : (setIdx s w).pc = s.pc := rfl
@[simp] theorem setIdx_sp (w : Word) : (setIdx s w).sp = s.sp := rfl
@[simp] theorem setIdx_stk (w : Word) : (setIdx s w).stk = s.stk := rfl
@[simp] theorem setIdx_dt (w : Word) : (setIdx s w).dt = s.dt := rfl
@[simp] theorem setIdx_st (w : Word) : (setIdx s w).st = s.st := rfl
@[simp] theorem setIdx_fb (w : Word) : (setIdx s w).fb = s.fb := rfl
@[simp] theorem setIdx_key (w : Word) : (setIdx s w).key = s.key := rfl
@[simp] theorem setIdx_mem (w : Word) : (setIdx s w).mem = s.mem := rfl
@[simp] theorem setIdx_rand (w : Word) : (setIdx s w).rand = s.rand := rfl
@[simp] theorem setIdx_steps (w : Word) : (setIdx s w).steps = s.steps := rfl
@[simp] theorem setIdx_params (w : Word) : (setIdx s w).params = s.params := rfl
@[simp] theorem readReg_setIdx (w : Word) (i : Reg) : readReg (setIdx s w) i = readReg s i := rfl
@[simp] theorem readByte_setIdx (w : Word) (p : Nat) : readByte (setIdx s w) p = readByte s p := rfl
@[simp] theorem readStack_setIdx (w : Word) (i : Fin 16) : readStack (setIdx s w) i = readStack s i := rfl
@[simp] theorem readCell_setIdx (w : Word) (row : Fin 32) (col : Fin 64) : readCell (setIdx s w) row col = readCell s row col := rfl
@[simp] theorem readKey_setIdx (w : Word) (i : Fin 16) : readKey (setIdx s w) i = readKey s i := rfl

/-! ## setPc -/

@[simp] theorem setPc_v (w : Word) : (setPc s w).v = s.v := rfl
@[simp] theorem setPc_idx (w : Word) : (setPc s w).idx = s.idx := rfl
@[simp] theorem setPc_pc (w : Word) : (setPc s w).pc = w := rfl
@[simp] theorem setPc_sp (w : Word) : (setPc s w).sp = s.sp := rfl
@[simp] theorem setPc_stk (w : Word) : (setPc s w).stk = s.stk := rfl
@[simp] theorem setPc_dt (w : Word) : (setPc s w).dt = s.dt := rfl
@[simp] theorem setPc_st (w : Word) : (setPc s w).st = s.st := rfl
@[simp] theorem setPc_fb (w : Word) : (setPc s w).fb = s.fb := rfl
@[simp] theorem setPc_key (w : Word) : (setPc s w).key = s.key := rfl
@[simp] theorem setPc_mem (w : Word) : (setPc s w).mem = s.mem := rfl
@[simp] theorem setPc_rand (w : Word) : (setPc s w).rand = s.rand := rfl
@[simp] theorem setPc_steps (w : Word) : (setPc s w).steps = s.steps := rfl
@[simp] theorem setPc_params (w : Word) : (setPc s w).params = s.params := rfl
@[simp] theorem readReg_setPc (w : Word) (i : Reg) : readReg (setPc s w) i = readReg s i := rfl
@[simp] theorem readByte_setPc (w : Word) (p : Nat) : readByte (setPc s w) p = readByte s p := rfl
@[simp] theorem readStack_setPc (w : Word) (i : Fin 16) : readStack (setPc s w) i = readStack s i := rfl
@[simp] theorem readCell_setPc (w : Word) (row : Fin 32) (col : Fin 64) : readCell (setPc s w) row col = readCell s row col := rfl
@[simp] theorem readKey_setPc (w : Word) (i : Fin 16) : readKey (setPc s w) i = readKey s i := rfl

/-! ## setDt -/

@[simp] theorem setDt_v (b : Byte) : (setDt s b).v = s.v := rfl
@[simp] theorem setDt_idx (b : Byte) : (setDt s b).idx = s.idx := rfl
@[simp] theorem setDt_pc (b : Byte) : (setDt s b).pc = s.pc := rfl
@[simp] theorem setDt_sp (b : Byte) : (setDt s b).sp = s.sp := rfl
@[simp] theorem setDt_stk (b : Byte) : (setDt s b).stk = s.stk := rfl
@[simp] theorem setDt_dt (b : Byte) : (setDt s b).dt = b := rfl
@[simp] theorem setDt_st (b : Byte) : (setDt s b).st = s.st := rfl
@[simp] theorem setDt_fb (b : Byte) : (setDt s b).fb = s.fb := rfl
@[simp] theorem setDt_key (b : Byte) : (setDt s b).key = s.key := rfl
@[simp] theorem setDt_mem (b : Byte) : (setDt s b).mem = s.mem := rfl
@[simp] theorem setDt_rand (b : Byte) : (setDt s b).rand = s.rand := rfl
@[simp] theorem setDt_steps (b : Byte) : (setDt s b).steps = s.steps := rfl
@[simp] theorem setDt_params (b : Byte) : (setDt s b).params = s.params := rfl
@[simp] theorem readReg_setDt (b : Byte) (i : Reg) : readReg (setDt s b) i = readReg s i := rfl
@[simp] theorem readByte_setDt (b : Byte) (p : Nat) : readByte (setDt s b) p = readByte s p := rfl
@[simp] theorem readStack_setDt (b : Byte) (i : Fin 16) : readStack (setDt s b) i = readStack s i := rfl
@[simp] theorem readCell_setDt (b : Byte) (row : Fin 32) (col : Fin 64) : readCell (setDt s b) row col = readCell s row col := rfl
@[simp] theorem readKey_setDt (b : Byte) (i : Fin 16) : readKey (setDt s b) i = readKey s i := rfl

/-! ## setSt -/

@[simp] theorem setSt_v (b : Byte) : (setSt s b).v = s.v := rfl
@[simp] theorem setSt_idx (b : Byte) : (setSt s b).idx = s.idx := rfl
@[simp] theorem setSt_pc (b : Byte) : (setSt s b).pc = s.pc := rfl
@[simp] theorem setSt_sp (b : Byte) : (setSt s b).sp = s.sp := rfl
@[simp] theorem setSt_stk (b : Byte) : (setSt s b).stk = s.stk := rfl
@[simp] theorem setSt_dt (b : Byte) : (setSt s b).dt = s.dt := rfl
@[simp] theorem setSt_st (b : Byte) : (setSt s b).st = b := rfl
@[simp] theorem setSt_fb (b : Byte) : (setSt s b).fb = s.fb := rfl
@[simp] theorem setSt_key (b : Byte) : (setSt s b).key = s.key := rfl
@[simp] theorem setSt_mem (b : Byte) : (setSt s b).mem = s.mem := rfl
@[simp] theorem setSt_rand (b : Byte) : (setSt s b).rand = s.rand := rfl
@[simp] theorem setSt_steps (b : Byte) : (setSt s b).steps = s.steps := rfl
@[simp] theorem setSt_params (b : Byte) : (setSt s b).params = s.params := rfl
@[simp] theorem readReg_setSt (b : Byte) (i : Reg) : readReg (setSt s b) i = readReg s i := rfl
@[simp] theorem readByte_setSt (b : Byte) (p : Nat) : readByte (setSt s b) p = readByte s p := rfl
@[simp] theorem readStack_setSt (b : Byte) (i : Fin 16) : readStack (setSt s b) i = readStack s i := rfl
@[simp] theorem readCell_setSt (b : Byte) (row : Fin 32) (col : Fin 64) : readCell (setSt s b) row col = readCell s row col := rfl
@[simp] theorem readKey_setSt (b : Byte) (i : Fin 16) : readKey (setSt s b) i = readKey s i := rfl

/-! ## setFb -/

@[simp] theorem setFb_v (f : Vector (Vector Bool 64) 32) : (setFb s f).v = s.v := rfl
@[simp] theorem setFb_idx (f : Vector (Vector Bool 64) 32) : (setFb s f).idx = s.idx := rfl
@[simp] theorem setFb_pc (f : Vector (Vector Bool 64) 32) : (setFb s f).pc = s.pc := rfl
@[simp] theorem setFb_sp (f : Vector (Vector Bool 64) 32) : (setFb s f).sp = s.sp := rfl
@[simp] theorem setFb_stk (f : Vector (Vector Bool 64) 32) : (setFb s f).stk = s.stk := rfl
@[simp] theorem setFb_dt (f : Vector (Vector Bool 64) 32) : (setFb s f).dt = s.dt := rfl
@[simp] theorem setFb_st (f : Vector (Vector Bool 64) 32) : (setFb s f).st = s.st := rfl
@[simp] theorem setFb_fb (f : Vector (Vector Bool 64) 32) : (setFb s f).fb = f := rfl
@[simp] theorem setFb_key (f : Vector (Vector Bool 64) 32) : (setFb s f).key = s.key := rfl
@[simp] theorem setFb_mem (f : Vector (Vector Bool 64) 32) : (setFb s f).mem = s.mem := rfl
@[simp] theorem setFb_rand (f : Vector (Vector Bool 64) 32) : (setFb s f).rand = s.rand := rfl
@[simp] theorem setFb_steps (f : Vector (Vector Bool 64) 32) : (setFb s f).steps = s.steps := rfl
@[simp] theorem setFb_params (f : Vector (Vector Bool 64) 32) : (setFb s f).params = s.params := rfl
@[simp] theorem readReg_setFb (f : Vector (Vector Bool 64) 32) (i : Reg) : readReg (setFb s f) i = readReg s i := rfl
@[simp] theorem readByte_setFb (f : Vector (Vector Bool 64) 32) (p : Nat) : readByte (setFb s f) p = readByte s p := rfl
@[simp] theorem readStack_setFb (f : Vector (Vector Bool 64) 32) (i : Fin 16) : readStack (setFb s f) i = readStack s i := rfl
@[simp] theorem readKey_setFb (f : Vector (Vector Bool 64) 32) (i : Fin 16) : readKey (setFb s f) i = readKey s i := rfl

/-! ## storeBytes -/

@[simp] theorem storeBytes_v (a : Nat) (bs : List Byte) : (storeBytes s a bs).v = s.v := rfl
@[simp] theorem storeBytes_idx (a : Nat) (bs : List Byte) : (storeBytes s a bs).idx = s.idx := rfl
@[simp] theorem storeBytes_pc (a : Nat) (bs : List Byte) : (storeBytes s a bs).pc = s.pc := rfl
@[simp] theorem storeBytes_sp (a : Nat) (bs : List Byte) : (storeBytes s a bs).sp = s.sp := rfl
@[simp] theorem storeBytes_stk (a : Nat) (bs : List Byte) : (storeBytes s a bs).stk = s.stk := rfl
@[simp] theorem storeBytes_dt (a : Nat) (bs : List Byte) : (storeBytes s a bs).dt = s.dt := rfl
@[simp] theorem storeBytes_st (a : Nat) (bs : List Byte) : (storeBytes s a bs).st = s.st := rfl
@[simp] theorem storeBytes_fb (a : Nat) (bs : List Byte) : (storeBytes s a bs).fb = s.fb := rfl
@[simp] theorem storeBytes_key (a : Nat) (bs : List Byte) : (storeBytes s a bs).key = s.key := rfl
@[simp] theorem storeBytes_mem (a : Nat) (bs : List Byte) : (storeBytes s a bs).mem = Memory.writeList s.params.fontRom s.mem a bs := rfl
@[simp] theorem storeBytes_rand (a : Nat) (bs : List Byte) : (storeBytes s a bs).rand = s.rand := rfl
@[simp] theorem storeBytes_steps (a : Nat) (bs : List Byte) : (storeBytes s a bs).steps = s.steps := rfl
@[simp] theorem storeBytes_params (a : Nat) (bs : List Byte) : (storeBytes s a bs).params = s.params := rfl
@[simp] theorem readReg_storeBytes (a : Nat) (bs : List Byte) (i : Reg) : readReg (storeBytes s a bs) i = readReg s i := rfl
@[simp] theorem readStack_storeBytes (a : Nat) (bs : List Byte) (i : Fin 16) : readStack (storeBytes s a bs) i = readStack s i := rfl
@[simp] theorem readCell_storeBytes (a : Nat) (bs : List Byte) (row : Fin 32) (col : Fin 64) : readCell (storeBytes s a bs) row col = readCell s row col := rfl
@[simp] theorem readKey_storeBytes (a : Nat) (bs : List Byte) (i : Fin 16) : readKey (storeBytes s a bs) i = readKey s i := rfl

/-! ## loadRegs -/

@[simp] theorem loadRegs_v (bs : List Byte) : (loadRegs s bs).v = loadRegsFrom s.v 0 bs := rfl
@[simp] theorem loadRegs_idx (bs : List Byte) : (loadRegs s bs).idx = s.idx := rfl
@[simp] theorem loadRegs_pc (bs : List Byte) : (loadRegs s bs).pc = s.pc := rfl
@[simp] theorem loadRegs_sp (bs : List Byte) : (loadRegs s bs).sp = s.sp := rfl
@[simp] theorem loadRegs_stk (bs : List Byte) : (loadRegs s bs).stk = s.stk := rfl
@[simp] theorem loadRegs_dt (bs : List Byte) : (loadRegs s bs).dt = s.dt := rfl
@[simp] theorem loadRegs_st (bs : List Byte) : (loadRegs s bs).st = s.st := rfl
@[simp] theorem loadRegs_fb (bs : List Byte) : (loadRegs s bs).fb = s.fb := rfl
@[simp] theorem loadRegs_key (bs : List Byte) : (loadRegs s bs).key = s.key := rfl
@[simp] theorem loadRegs_mem (bs : List Byte) : (loadRegs s bs).mem = s.mem := rfl
@[simp] theorem loadRegs_rand (bs : List Byte) : (loadRegs s bs).rand = s.rand := rfl
@[simp] theorem loadRegs_steps (bs : List Byte) : (loadRegs s bs).steps = s.steps := rfl
@[simp] theorem loadRegs_params (bs : List Byte) : (loadRegs s bs).params = s.params := rfl
@[simp] theorem readByte_loadRegs (bs : List Byte) (p : Nat) : readByte (loadRegs s bs) p = readByte s p := rfl
@[simp] theorem readStack_loadRegs (bs : List Byte) (i : Fin 16) : readStack (loadRegs s bs) i = readStack s i := rfl
@[simp] theorem readCell_loadRegs (bs : List Byte) (row : Fin 32) (col : Fin 64) : readCell (loadRegs s bs) row col = readCell s row col := rfl
@[simp] theorem readKey_loadRegs (bs : List Byte) (i : Fin 16) : readKey (loadRegs s bs) i = readKey s i := rfl

/-! ## dropTop -/

@[simp] theorem dropTop_v : (dropTop s).v = s.v := rfl
@[simp] theorem dropTop_idx : (dropTop s).idx = s.idx := rfl
@[simp] theorem dropTop_pc : (dropTop s).pc = s.pc := rfl
@[simp] theorem dropTop_stk : (dropTop s).stk = s.stk := rfl
@[simp] theorem dropTop_dt : (dropTop s).dt = s.dt := rfl
@[simp] theorem dropTop_st : (dropTop s).st = s.st := rfl
@[simp] theorem dropTop_fb : (dropTop s).fb = s.fb := rfl
@[simp] theorem dropTop_key : (dropTop s).key = s.key := rfl
@[simp] theorem dropTop_mem : (dropTop s).mem = s.mem := rfl
@[simp] theorem dropTop_rand : (dropTop s).rand = s.rand := rfl
@[simp] theorem dropTop_steps : (dropTop s).steps = s.steps := rfl
@[simp] theorem dropTop_params : (dropTop s).params = s.params := rfl
@[simp] theorem readReg_dropTop (i : Reg) : readReg (dropTop s) i = readReg s i := rfl
@[simp] theorem readByte_dropTop (p : Nat) : readByte (dropTop s) p = readByte s p := rfl
@[simp] theorem readStack_dropTop (i : Fin 16) : readStack (dropTop s) i = readStack s i := rfl
@[simp] theorem readCell_dropTop (row : Fin 32) (col : Fin 64) : readCell (dropTop s) row col = readCell s row col := rfl
@[simp] theorem readKey_dropTop (i : Fin 16) : readKey (dropTop s) i = readKey s i := rfl

/-! ## beginStep -/

@[simp] theorem beginStep_v (r : Byte) : (beginStep r s).v = s.v := rfl
@[simp] theorem beginStep_idx (r : Byte) : (beginStep r s).idx = s.idx := rfl
@[simp] theorem beginStep_pc (r : Byte) : (beginStep r s).pc = s.pc + 2 := rfl
@[simp] theorem beginStep_sp (r : Byte) : (beginStep r s).sp = s.sp := rfl
@[simp] theorem beginStep_stk (r : Byte) : (beginStep r s).stk = s.stk := rfl
@[simp] theorem beginStep_dt (r : Byte) : (beginStep r s).dt = s.dt := rfl
@[simp] theorem beginStep_st (r : Byte) : (beginStep r s).st = s.st := rfl
@[simp] theorem beginStep_fb (r : Byte) : (beginStep r s).fb = s.fb := rfl
@[simp] theorem beginStep_key (r : Byte) : (beginStep r s).key = s.key := rfl
@[simp] theorem beginStep_mem (r : Byte) : (beginStep r s).mem = s.mem := rfl
@[simp] theorem beginStep_rand (r : Byte) : (beginStep r s).rand = r := rfl
@[simp] theorem beginStep_steps (r : Byte) : (beginStep r s).steps = s.steps + 1 := rfl
@[simp] theorem beginStep_params (r : Byte) : (beginStep r s).params = s.params := rfl
@[simp] theorem readReg_beginStep (r : Byte) (i : Reg) : readReg (beginStep r s) i = readReg s i := rfl
@[simp] theorem readByte_beginStep (r : Byte) (p : Nat) : readByte (beginStep r s) p = readByte s p := rfl
@[simp] theorem readStack_beginStep (r : Byte) (i : Fin 16) : readStack (beginStep r s) i = readStack s i := rfl
@[simp] theorem readCell_beginStep (r : Byte) (row : Fin 32) (col : Fin 64) : readCell (beginStep r s) row col = readCell s row col := rfl
@[simp] theorem readKey_beginStep (r : Byte) (i : Fin 16) : readKey (beginStep r s) i = readKey s i := rfl

/-! ## tick -/

@[simp] theorem tick_v : (tick s).v = s.v := rfl
@[simp] theorem tick_idx : (tick s).idx = s.idx := rfl
@[simp] theorem tick_pc : (tick s).pc = s.pc := rfl
@[simp] theorem tick_sp : (tick s).sp = s.sp := rfl
@[simp] theorem tick_stk : (tick s).stk = s.stk := rfl
@[simp] theorem tick_dt : (tick s).dt = tickByte s.dt := rfl
@[simp] theorem tick_st : (tick s).st = tickByte s.st := rfl
@[simp] theorem tick_fb : (tick s).fb = s.fb := rfl
@[simp] theorem tick_key : (tick s).key = s.key := rfl
@[simp] theorem tick_mem : (tick s).mem = s.mem := rfl
@[simp] theorem tick_rand : (tick s).rand = s.rand := rfl
@[simp] theorem tick_steps : (tick s).steps = s.steps := rfl
@[simp] theorem tick_params : (tick s).params = s.params := rfl
@[simp] theorem readReg_tick (i : Reg) : readReg (tick s) i = readReg s i := rfl
@[simp] theorem readByte_tick (p : Nat) : readByte (tick s) p = readByte s p := rfl
@[simp] theorem readStack_tick (i : Fin 16) : readStack (tick s) i = readStack s i := rfl
@[simp] theorem readCell_tick (row : Fin 32) (col : Fin 64) : readCell (tick s) row col = readCell s row col := rfl
@[simp] theorem readKey_tick (i : Fin 16) : readKey (tick s) i = readKey s i := rfl

@[simp] theorem dropTop_sp : (dropTop s).sp.val = s.sp.val - 1 := rfl

/-! ## skipIf -/

@[simp] theorem skipIf_v (c : Bool) : (skipIf s c).v = s.v := by unfold skipIf; split <;> rfl
@[simp] theorem skipIf_idx (c : Bool) : (skipIf s c).idx = s.idx := by unfold skipIf; split <;> rfl
@[simp] theorem skipIf_sp (c : Bool) : (skipIf s c).sp = s.sp := by unfold skipIf; split <;> rfl
@[simp] theorem skipIf_stk (c : Bool) : (skipIf s c).stk = s.stk := by unfold skipIf; split <;> rfl
@[simp] theorem skipIf_dt (c : Bool) : (skipIf s c).dt = s.dt := by unfold skipIf; split <;> rfl
@[simp] theorem skipIf_st (c : Bool) : (skipIf s c).st = s.st := by unfold skipIf; split <;> rfl
@[simp] theorem skipIf_fb (c : Bool) : (skipIf s c).fb = s.fb := by unfold skipIf; split <;> rfl
@[simp] theorem skipIf_key (c : Bool) : (skipIf s c).key = s.key := by unfold skipIf; split <;> rfl
@[simp] theorem skipIf_mem (c : Bool) : (skipIf s c).mem = s.mem := by unfold skipIf; split <;> rfl
@[simp] theorem skipIf_rand (c : Bool) : (skipIf s c).rand = s.rand := by unfold skipIf; split <;> rfl
@[simp] theorem skipIf_steps (c : Bool) : (skipIf s c).steps = s.steps := by unfold skipIf; split <;> rfl
@[simp] theorem skipIf_params (c : Bool) : (skipIf s c).params = s.params := by unfold skipIf; split <;> rfl
@[simp] theorem readReg_skipIf (c : Bool) (i : Reg) : readReg (skipIf s c) i = readReg s i := by unfold skipIf; split <;> rfl
@[simp] theorem readByte_skipIf (c : Bool) (p : Nat) : readByte (skipIf s c) p = readByte s p := by unfold skipIf; split <;> rfl
@[simp] theorem readStack_skipIf (c : Bool) (i : Fin 16) : readStack (skipIf s c) i = readStack s i := by unfold skipIf; split <;> rfl
@[simp] theorem readCell_skipIf (c : Bool) (row : Fin 32) (col : Fin 64) : readCell (skipIf s c) row col = readCell s row col := by unfold skipIf; split <;> rfl
@[simp] theorem readKey_skipIf (c : Bool) (i : Fin 16) : readKey (skipIf s c) i = readKey s i := by unfold skipIf; split <;> rfl

/-! ## push -/

@[simp] theorem push_v (w : Word) : (push s w).v = s.v := by unfold push; split <;> rfl
@[simp] theorem push_idx (w : Word) : (push s w).idx = s.idx := by unfold push; split <;> rfl
@[simp] theorem push_pc (w : Word) : (push s w).pc = s.pc := by unfold push; split <;> rfl
@[simp] theorem push_dt (w : Word) : (push s w).dt = s.dt := by unfold push; split <;> rfl
@[simp] theorem push_st (w : Word) : (push s w).st = s.st := by unfold push; split <;> rfl
@[simp] theorem push_fb (w : Word) : (push s w).fb = s.fb := by unfold push; split <;> rfl
@[simp] theorem push_key (w : Word) : (push s w).key = s.key := by unfold push; split <;> rfl
@[simp] theorem push_mem (w : Word) : (push s w).mem = s.mem := by unfold push; split <;> rfl
@[simp] theorem push_rand (w : Word) : (push s w).rand = s.rand := by unfold push; split <;> rfl
@[simp] theorem push_steps (w : Word) : (push s w).steps = s.steps := by unfold push; split <;> rfl
@[simp] theorem push_params (w : Word) : (push s w).params = s.params := by unfold push; split <;> rfl
@[simp] theorem readReg_push (w : Word) (i : Reg) : readReg (push s w) i = readReg s i := by unfold push; split <;> rfl
@[simp] theorem readByte_push (w : Word) (p : Nat) : readByte (push s w) p = readByte s p := by unfold push; split <;> rfl
@[simp] theorem readCell_push (w : Word) (row : Fin 32) (col : Fin 64) : readCell (push s w) row col = readCell s row col := by unfold push; split <;> rfl
@[simp] theorem readKey_push (w : Word) (i : Fin 16) : readKey (push s w) i = readKey s i := by unfold push; split <;> rfl

/-! ## writeResultFlag -/

@[simp] theorem writeResultFlag_idx (x : Reg) (r f : Byte) : (writeResultFlag s x r f).idx = s.idx := by unfold writeResultFlag; split <;> rfl
@[simp] theorem writeResultFlag_pc (x : Reg) (r f : Byte) : (writeResultFlag s x r f).pc = s.pc := by unfold writeResultFlag; split <;> rfl
@[simp] theorem writeResultFlag_sp (x : Reg) (r f : Byte) : (writeResultFlag s x r f).sp = s.sp := by unfold writeResultFlag; split <;> rfl
@[simp] theorem writeResultFlag_stk (x : Reg) (r f : Byte) : (writeResultFlag s x r f).stk = s.stk := by unfold writeResultFlag; split <;> rfl
@[simp] theorem writeResultFlag_dt (x : Reg) (r f : Byte) : (writeResultFlag s x r f).dt = s.dt := by unfold writeResultFlag; split <;> rfl
@[simp] theorem writeResultFlag_st (x : Reg) (r f : Byte) : (writeResultFlag s x r f).st = s.st := by unfold writeResultFlag; split <;> rfl
@[simp] theorem writeResultFlag_fb (x : Reg) (r f : Byte) : (writeResultFlag s x r f).fb = s.fb := by unfold writeResultFlag; split <;> rfl
@[simp] theorem writeResultFlag_key (x : Reg) (r f : Byte) : (writeResultFlag s x r f).key = s.key := by unfold writeResultFlag; split <;> rfl
@[simp] theorem writeResultFlag_mem (x : Reg) (r f : Byte) : (writeResultFlag s x r f).mem = s.mem := by unfold writeResultFlag; split <;> rfl
@[simp] theorem writeResultFlag_rand (x : Reg) (r f : Byte) : (writeResultFlag s x r f).rand = s.rand := by unfold writeResultFlag; split <;> rfl
@[simp] theorem writeResultFlag_steps (x : Reg) (r f : Byte) : (writeResultFlag s x r f).steps = s.steps := by unfold writeResultFlag; split <;> rfl
@[simp] theorem writeResultFlag_params (x : Reg) (r f : Byte) : (writeResultFlag s x r f).params = s.params := by unfold writeResultFlag; split <;> rfl
@[simp] theorem readByte_writeResultFlag (x : Reg) (r f : Byte) (p : Nat) : readByte (writeResultFlag s x r f) p = readByte s p := by unfold writeResultFlag; split <;> rfl
@[simp] theorem readStack_writeResultFlag (x : Reg) (r f : Byte) (i : Fin 16) : readStack (writeResultFlag s x r f) i = readStack s i := by unfold writeResultFlag; split <;> rfl
@[simp] theorem readCell_writeResultFlag (x : Reg) (r f : Byte) (row : Fin 32) (col : Fin 64) : readCell (writeResultFlag s x r f) row col = readCell s row col := by unfold writeResultFlag; split <;> rfl
@[simp] theorem readKey_writeResultFlag (x : Reg) (r f : Byte) (i : Fin 16) : readKey (writeResultFlag s x r f) i = readKey s i := by unfold writeResultFlag; split <;> rfl

/-! ## Register reads after register writes -/

/-- A register reads as written last. -/
theorem readReg_writeReg (x j : Reg) (b : Byte) : readReg (writeReg s x b) j = if j = x then b else readReg s j := by
  unfold readReg writeReg
  by_cases h : j = x
  · subst h; simp
  · have : x.val ≠ j.val := fun e => h (Fin.ext e.symm)
    simp [h, this]

@[simp] theorem readReg_writeReg_self (x : Reg) (b : Byte) : readReg (writeReg s x b) x = b := by
  simp [readReg_writeReg]

theorem readReg_writeReg_ne (x j : Reg) (b : Byte) (h : j ≠ x) : readReg (writeReg s x b) j = readReg s j := by
  simp [readReg_writeReg, h]

/-- What a destination and a flag write leave in a register, by VF_PRIORITY (40_step_cycle.md R106). -/
theorem readReg_writeResultFlag (x j : Reg) (r f : Byte) :
    readReg (writeResultFlag s x r f) j =
      if j = regVF ∧ (x ≠ regVF ∨ s.params.vfPriority = .flag) then f else if j = x then r else readReg s j := by
  unfold writeResultFlag
  cases s.params.vfPriority <;> simp only [readReg_writeReg]
  · by_cases h1 : j = regVF <;> simp [h1]
  · by_cases h1 : j = regVF <;> by_cases h2 : j = x <;> simp_all
    intro h3; exact absurd h3.symm h2

end Sys2Proof.Machine
end

