-- ==== Sys2Proof/Laws/Ops.lean ====
section
/-! SUPPORT. One lemma for each shared operation that says everything it can do. -/

namespace Sys2Proof.Machine

variable (s : State)

/-! ## Memory through the state -/

/-- What a byte reads as after bytes are stored. -/
theorem readByte_storeBytes (a b : Nat) (bs : List Byte) :
    readByte (storeBytes s a bs) b =
      if h : a ≤ b ∧ b - a < bs.length then bs[b - a]'h.2 else readByte s b :=
  Memory.read_writeList s.params.fontRom s.mem a b bs

@[simp] theorem loadBytes_length (a n : Nat) : (loadBytes s a n).length = n := by
  induction n generalizing a with
  | zero => rfl
  | succ n ih => simp [loadBytes, ih]

/-- The k-th loaded byte is the one at the k-th address. -/
theorem loadBytes_getElem (a n k : Nat) (h : k < (loadBytes s a n).length) :
    (loadBytes s a n)[k] = readByte s (a + k) := by
  induction n generalizing a k with
  | zero => simp [loadBytes] at h
  | succ n ih =>
    cases k with
    | zero => rfl
    | succ k =>
      simp only [loadBytes, List.getElem_cons_succ]
      rw [ih, Nat.add_assoc, Nat.add_comm 1 k]

@[simp] theorem regList_length (x : Reg) : (regList s (regCount x)).length = regCount x := by
  have := x.isLt
  simp [regList, regCount]

/-- The k-th register of the list stored by `LD [I], Vx` is V[k]. -/
theorem regList_getElem (n k : Nat) (h : k < (regList s n).length) (hk : k < 16) :
    (regList s n)[k] = readReg s ⟨k, hk⟩ := by
  simp [regList, readReg]

/-- What loading bytes from register `k` upward leaves in each register. -/
theorem loadRegsFrom_getElem (v : Vector Byte 16) (k : Nat) (bs : List Byte) (j : Nat) (hj : j < 16) :
    (loadRegsFrom v k bs)[j] = if h : k ≤ j ∧ j - k < bs.length then bs[j - k]'h.2 else v[j] := by
  induction bs generalizing v k with
  | nil => simp [loadRegsFrom]
  | cons b bs ih =>
    rw [loadRegsFrom, ih]
    by_cases hb : j = k
    · subst hb; simp [hj]
    · by_cases h1 : k + 1 ≤ j ∧ j - (k + 1) < bs.length
      · have h2 : k ≤ j ∧ j - k < (b :: bs).length := by simp; omega
        have h3 : j - k = (j - (k + 1)) + 1 := by omega
        rw [dif_pos h1, dif_pos h2]
        simp only [h3, List.getElem_cons_succ]
      · have h2 : ¬ (k ≤ j ∧ j - k < (b :: bs).length) := by simp; omega
        rw [dif_neg h1, dif_neg h2]
        split
        · rw [Vector.getElem_set_ne _ _ (Ne.symm hb)]
        · rfl

/-- What `LD Vx, [I]`'s load leaves in each register. -/
theorem readReg_loadRegs (bs : List Byte) (j : Reg) :
    readReg (loadRegs s bs) j = if h : j.val < bs.length then bs[j.val] else readReg s j := by
  simp only [readReg, loadRegs_v, loadRegsFrom_getElem]
  simp

/-! ## Range checks -/

/-- The condition under which the bytes of an access all lie in the memory. -/
theorem withDataRange_of_le (n : Nat) (k : Result) (h : n = 0 ∨ s.idx.toNat + (n - 1) ≤ 0xFFF) :
    withDataRange s n k = k := if_pos h

theorem withDataRange_of_gt (n : Nat) (k : Result) (h : ¬ (n = 0 ∨ s.idx.toNat + (n - 1) ≤ 0xFFF)) :
    withDataRange s n k = .fault (dataFault s.idx) := if_neg h

/-- A checked access that completes was in range. -/
theorem withDataRange_eq_next (n : Nat) (k : Result) (t : State) (h : withDataRange s n k = .next t) :
    (n = 0 ∨ s.idx.toNat + (n - 1) ≤ 0xFFF) ∧ k = .next t := by
  unfold withDataRange at h
  split at h
  · exact ⟨‹_›, h⟩
  · simp [raise] at h

/-! ## Call stack -/

/-- The top of a stack that holds something. -/
theorem topOfStack_of_pos (k : Fin 16) (h : s.sp.val = k.val + 1) : topOfStack s = some (readStack s k) := by
  have h0 : s.sp.val ≠ 0 := by omega
  have h1 : s.sp.val - 1 = k.val := by omega
  simp [topOfStack, h0, h1, readStack]

theorem topOfStack_of_zero (h : s.sp.val = 0) : topOfStack s = none := by simp [topOfStack, h]

/-- What a push leaves in SP and the entries. -/
theorem push_sp (w : Word) (h : s.sp.val < 16) : (push s w).sp.val = s.sp.val + 1 := by
  simp [push, h]

theorem readStack_push (w : Word) (k : Fin 16) (h : s.sp.val < 16) :
    readStack (push s w) k = if k.val = s.sp.val then w else readStack s k := by
  simp only [push, h, dif_pos, readStack]
  by_cases hk : k.val = s.sp.val
  · simp [hk]
  · simp [hk, Ne.symm hk]

/-! ## Keys -/

/-- The least pressed key is pressed, and no lower one is. -/
theorem lowestKey_eq_some (k : Fin 16) (h : lowestKey s = some k) :
    readKey s k = true ∧ ∀ j, j < k → readKey s j = false := by
  unfold lowestKey keyNumbers at h
  simp only [List.find?_cons] at h
  refine ⟨?_, fun j hj => ?_⟩ <;> (repeat' split at h) <;> simp_all <;> subst h <;>
    revert j <;> simp_all [Fin.forall_fin_succ]

/-- No least pressed key: none is pressed. -/
theorem lowestKey_eq_none (h : lowestKey s = none) (k : Fin 16) : readKey s k = false := by
  have := List.find?_eq_none.1 h k (by revert k; decide)
  simpa using this

/-! ## Timers -/

/-- A tick in numbers: 1 less, and 0 stays. -/
theorem tickByte_toNat (b : Byte) : (tickByte b).toNat = b.toNat - 1 := by
  unfold tickByte
  split
  · have := b.isLt
    rw [BitVec.toNat_sub_of_le (by rw [BitVec.le_def]; exact ‹0 < b.toNat›)]; rfl
  · omega

/-! ## The phases of a Step -/

theorem fetch_of_le (h : s.pc.toNat ≤ 0xFFE) :
    fetch s = some (wordOfBytes (readByte s s.pc.toNat) (readByte s (s.pc.toNat + 1))) := if_pos h

theorem fetch_of_gt (h : ¬ s.pc.toNat ≤ 0xFFE) : fetch s = none := if_neg h

/-- A completed Step fetched a word inside the memory, executed its instruction and ticked. -/
theorem stepWith_eq_next (r : Byte) (t : State) (h : stepWith r s = .next t) :
    s.pc.toNat ≤ 0xFFE ∧ ∃ w u, fetch s = some w ∧
      exec (decodeWith s.params.decodeMode w) (beginStep r s) = .next u ∧ t = tick u := by
  unfold stepWith at h
  split at h
  · simp [raise] at h
  · rename_i w hw
    refine ⟨?_, w, ?_⟩
    · by_contra hc; rw [fetch_of_gt s hc] at hw; exact absurd hw (by simp)
    · cases he : exec (decodeWith s.params.decodeMode w) (beginStep r s) <;>
        simp only [he, completeStep] at h
      · exact ⟨_, hw, rfl, by simpa using h.symm⟩
      · simp at h
      · simp at h

end Sys2Proof.Machine
end

