-- ==== Sys2Proof/Laws/PerInstr.lean ====
section
/-! SUPPORT. Per instruction: its word lies in its own row of the opcode map (30_encoding.md R81). -/

namespace Sys2Proof.Laws

/-- The canonical word of a well-formed instruction, masked by its row, is the row's match. -/
def EncodesIntoRow.Statement (i : Instr) : Prop :=
  i.wf = true → encode i &&& (opcodeRow i).1 = (opcodeRow i).2

/-- A masked word, bit by bit. -/
theorem and_eq_of_bits (w m r : Word) (h : ∀ i < 16, (w.getLsbD i && m.getLsbD i) = r.getLsbD i) :
    w &&& m = r :=
  BitVec.eq_of_getLsbD_eq fun i hi => by rw [BitVec.getLsbD_and]; exact h i hi

theorem EncodesIntoRow.cls :
    EncodesIntoRow.Statement (.cls) := fun _ => by decide

theorem EncodesIntoRow.ret :
    EncodesIntoRow.Statement (.ret) := fun _ => by decide

theorem EncodesIntoRow.jp (nnn : Addr12) :
    EncodesIntoRow.Statement (.jp nnn) := fun _ => and_eq_of_bits _ _ _ fun i hi => by
  simp only [encode, opcodeRow, getLsbD_encodeA]
  interval_cases i <;> simp

theorem EncodesIntoRow.call (nnn : Addr12) :
    EncodesIntoRow.Statement (.call nnn) := fun _ => and_eq_of_bits _ _ _ fun i hi => by
  simp only [encode, opcodeRow, getLsbD_encodeA]
  interval_cases i <;> simp

theorem EncodesIntoRow.seImm (x : Reg) (kk : Byte) :
    EncodesIntoRow.Statement (.seImm x kk) := fun _ => and_eq_of_bits _ _ _ fun i hi => by
  simp only [encode, opcodeRow, getLsbD_encodeXK]
  interval_cases i <;> simp

theorem EncodesIntoRow.sneImm (x : Reg) (kk : Byte) :
    EncodesIntoRow.Statement (.sneImm x kk) := fun _ => and_eq_of_bits _ _ _ fun i hi => by
  simp only [encode, opcodeRow, getLsbD_encodeXK]
  interval_cases i <;> simp

theorem EncodesIntoRow.seReg (x : Reg) (y : Reg) :
    EncodesIntoRow.Statement (.seReg x y) := fun _ => and_eq_of_bits _ _ _ fun i hi => by
  simp only [encode, opcodeRow, getLsbD_encodeXYN]
  interval_cases i <;> simp

theorem EncodesIntoRow.ldImm (x : Reg) (kk : Byte) :
    EncodesIntoRow.Statement (.ldImm x kk) := fun _ => and_eq_of_bits _ _ _ fun i hi => by
  simp only [encode, opcodeRow, getLsbD_encodeXK]
  interval_cases i <;> simp

theorem EncodesIntoRow.addImm (x : Reg) (kk : Byte) :
    EncodesIntoRow.Statement (.addImm x kk) := fun _ => and_eq_of_bits _ _ _ fun i hi => by
  simp only [encode, opcodeRow, getLsbD_encodeXK]
  interval_cases i <;> simp

theorem EncodesIntoRow.ldReg (x : Reg) (y : Reg) :
    EncodesIntoRow.Statement (.ldReg x y) := fun _ => and_eq_of_bits _ _ _ fun i hi => by
  simp only [encode, opcodeRow, getLsbD_encodeXYN]
  interval_cases i <;> simp

theorem EncodesIntoRow.orReg (x : Reg) (y : Reg) :
    EncodesIntoRow.Statement (.orReg x y) := fun _ => and_eq_of_bits _ _ _ fun i hi => by
  simp only [encode, opcodeRow, getLsbD_encodeXYN]
  interval_cases i <;> simp

theorem EncodesIntoRow.andReg (x : Reg) (y : Reg) :
    EncodesIntoRow.Statement (.andReg x y) := fun _ => and_eq_of_bits _ _ _ fun i hi => by
  simp only [encode, opcodeRow, getLsbD_encodeXYN]
  interval_cases i <;> simp

theorem EncodesIntoRow.xorReg (x : Reg) (y : Reg) :
    EncodesIntoRow.Statement (.xorReg x y) := fun _ => and_eq_of_bits _ _ _ fun i hi => by
  simp only [encode, opcodeRow, getLsbD_encodeXYN]
  interval_cases i <;> simp

theorem EncodesIntoRow.addReg (x : Reg) (y : Reg) :
    EncodesIntoRow.Statement (.addReg x y) := fun _ => and_eq_of_bits _ _ _ fun i hi => by
  simp only [encode, opcodeRow, getLsbD_encodeXYN]
  interval_cases i <;> simp

theorem EncodesIntoRow.sub (x : Reg) (y : Reg) :
    EncodesIntoRow.Statement (.sub x y) := fun _ => and_eq_of_bits _ _ _ fun i hi => by
  simp only [encode, opcodeRow, getLsbD_encodeXYN]
  interval_cases i <;> simp

theorem EncodesIntoRow.shr (x : Reg) (y : Reg) :
    EncodesIntoRow.Statement (.shr x y) := fun _ => and_eq_of_bits _ _ _ fun i hi => by
  simp only [encode, opcodeRow, getLsbD_encodeXYN]
  interval_cases i <;> simp

theorem EncodesIntoRow.subn (x : Reg) (y : Reg) :
    EncodesIntoRow.Statement (.subn x y) := fun _ => and_eq_of_bits _ _ _ fun i hi => by
  simp only [encode, opcodeRow, getLsbD_encodeXYN]
  interval_cases i <;> simp

theorem EncodesIntoRow.shl (x : Reg) (y : Reg) :
    EncodesIntoRow.Statement (.shl x y) := fun _ => and_eq_of_bits _ _ _ fun i hi => by
  simp only [encode, opcodeRow, getLsbD_encodeXYN]
  interval_cases i <;> simp

theorem EncodesIntoRow.sneReg (x : Reg) (y : Reg) :
    EncodesIntoRow.Statement (.sneReg x y) := fun _ => and_eq_of_bits _ _ _ fun i hi => by
  simp only [encode, opcodeRow, getLsbD_encodeXYN]
  interval_cases i <;> simp

theorem EncodesIntoRow.ldI (nnn : Addr12) :
    EncodesIntoRow.Statement (.ldI nnn) := fun _ => and_eq_of_bits _ _ _ fun i hi => by
  simp only [encode, opcodeRow, getLsbD_encodeA]
  interval_cases i <;> simp

theorem EncodesIntoRow.jpV0 (nnn : Addr12) :
    EncodesIntoRow.Statement (.jpV0 nnn) := fun _ => and_eq_of_bits _ _ _ fun i hi => by
  simp only [encode, opcodeRow, getLsbD_encodeA]
  interval_cases i <;> simp

theorem EncodesIntoRow.rnd (x : Reg) (kk : Byte) :
    EncodesIntoRow.Statement (.rnd x kk) := fun _ => and_eq_of_bits _ _ _ fun i hi => by
  simp only [encode, opcodeRow, getLsbD_encodeXK]
  interval_cases i <;> simp

theorem EncodesIntoRow.drw (x : Reg) (y : Reg) (n : Nibble) :
    EncodesIntoRow.Statement (.drw x y n) := fun _ => and_eq_of_bits _ _ _ fun i hi => by
  simp only [encode, opcodeRow, getLsbD_encodeXYN]
  interval_cases i <;> simp

theorem EncodesIntoRow.skp (x : Reg) :
    EncodesIntoRow.Statement (.skp x) := fun _ => and_eq_of_bits _ _ _ fun i hi => by
  simp only [encode, opcodeRow, getLsbD_encodeXK]
  interval_cases i <;> simp

theorem EncodesIntoRow.sknp (x : Reg) :
    EncodesIntoRow.Statement (.sknp x) := fun _ => and_eq_of_bits _ _ _ fun i hi => by
  simp only [encode, opcodeRow, getLsbD_encodeXK]
  interval_cases i <;> simp

theorem EncodesIntoRow.ldVxDt (x : Reg) :
    EncodesIntoRow.Statement (.ldVxDt x) := fun _ => and_eq_of_bits _ _ _ fun i hi => by
  simp only [encode, opcodeRow, getLsbD_encodeXK]
  interval_cases i <;> simp

theorem EncodesIntoRow.ldVxK (x : Reg) :
    EncodesIntoRow.Statement (.ldVxK x) := fun _ => and_eq_of_bits _ _ _ fun i hi => by
  simp only [encode, opcodeRow, getLsbD_encodeXK]
  interval_cases i <;> simp

theorem EncodesIntoRow.ldDtVx (x : Reg) :
    EncodesIntoRow.Statement (.ldDtVx x) := fun _ => and_eq_of_bits _ _ _ fun i hi => by
  simp only [encode, opcodeRow, getLsbD_encodeXK]
  interval_cases i <;> simp

theorem EncodesIntoRow.ldStVx (x : Reg) :
    EncodesIntoRow.Statement (.ldStVx x) := fun _ => and_eq_of_bits _ _ _ fun i hi => by
  simp only [encode, opcodeRow, getLsbD_encodeXK]
  interval_cases i <;> simp

theorem EncodesIntoRow.addIVx (x : Reg) :
    EncodesIntoRow.Statement (.addIVx x) := fun _ => and_eq_of_bits _ _ _ fun i hi => by
  simp only [encode, opcodeRow, getLsbD_encodeXK]
  interval_cases i <;> simp

theorem EncodesIntoRow.ldFVx (x : Reg) :
    EncodesIntoRow.Statement (.ldFVx x) := fun _ => and_eq_of_bits _ _ _ fun i hi => by
  simp only [encode, opcodeRow, getLsbD_encodeXK]
  interval_cases i <;> simp

theorem EncodesIntoRow.ldBVx (x : Reg) :
    EncodesIntoRow.Statement (.ldBVx x) := fun _ => and_eq_of_bits _ _ _ fun i hi => by
  simp only [encode, opcodeRow, getLsbD_encodeXK]
  interval_cases i <;> simp

theorem EncodesIntoRow.ldMemVx (x : Reg) :
    EncodesIntoRow.Statement (.ldMemVx x) := fun _ => and_eq_of_bits _ _ _ fun i hi => by
  simp only [encode, opcodeRow, getLsbD_encodeXK]
  interval_cases i <;> simp

theorem EncodesIntoRow.ldVxMem (x : Reg) :
    EncodesIntoRow.Statement (.ldVxMem x) := fun _ => and_eq_of_bits _ _ _ fun i hi => by
  simp only [encode, opcodeRow, getLsbD_encodeXK]
  interval_cases i <;> simp

theorem EncodesIntoRow.nopUnknown (w : Word) :
    EncodesIntoRow.Statement (.nopUnknown w) := fun _ => BitVec.and_zero

end Sys2Proof.Laws
end

