-- ==== Sys2Proof/Tests/Slice0.lean ====
section
/-! SUPPORT. Tests: the refused ill-formed term, a word of every row written out from 30_encoding.md R81, single Steps with the results 95_test_vectors.md gives, and witnesses for the hypotheses of the obligations. -/

namespace Sys2Proof.Tests

open Sys2Proof Sys2Proof.Machine

/-! ## Helpers -/

/-- The reset state with registers set. -/
def withRegs (l : List (Reg × Byte)) : State := l.foldl (fun s p => writeReg s p.1 p.2) State.reset

/-- A state with cells turned on. -/
def withCells (l : List (Fin 32 × Fin 64)) (s : State) : State :=
  setFb s (l.foldl (fun fb p => fbSet fb p.1 p.2 true) s.fb)

/-- The word placed where the next Step fetches. -/
def placed (w : Word) (s : State) : State := s.withFetchWord 16 w.toNat

/-- One Step of the word from the state, with the random byte of the vectors, A7. -/
def runWord (w : Word) (s : State) : Result := stepWith 0xA7 (placed w s)

/-- What a completed Step left, seen through `f`. -/
def left {α : Type} (r : Result) (f : State → α) : Option α :=
  match r with
  | .next s => some (f s)
  | .fault _ => none
  | .refused _ => none

/-- The fault of a rejected Step. -/
def faultOf (r : Result) : Option Fault :=
  match r with
  | .next _ => none
  | .fault f => some f
  | .refused _ => none

/-- The destination V0 and VF. -/
def v0vf (s : State) : Byte × Byte := (readReg s 0, readReg s 15)

/-- The reset state under the alternatives of the open parameters. -/
def otherParams : State :=
  { State.reset with params := { defaultParams with
      spriteEdge := .clip, shiftSource := .y, vfPriority := .destination, decodeMode := .strict } }

/-! ## Well-formedness -/

/-- A no-op that carries the word of an instruction (0x6000 is `LD V0, 0`) is refused. -/
theorem test_wf_refuses_mapped_noop : (Instr.nopUnknown 0x6000).wf = false := by decide
/-- The all-zero word is `CLS` (30 R75), so no no-op carries it. -/
theorem test_wf_refuses_zero_noop : (Instr.nopUnknown 0x0000).wf = false := by decide

/-! ## Decoding: one word of every row (30 R81), bit by bit: top, x, y, n -/

theorem test_decode_cls : decodeWord 0b0000_0000_1110_0000 = .cls := by decide
theorem test_decode_cls_alias : decodeWord 0b0000_1010_1011_0000 = .cls := by decide
theorem test_decode_ret : decodeWord 0b0000_0000_1110_1110 = .ret := by decide
theorem test_decode_jp : decodeWord 0b0001_0010_0011_0100 = .jp 0x234 := by decide
theorem test_decode_call : decodeWord 0b0010_1111_1110_1101 = .call 0xFED := by decide
theorem test_decode_seImm : decodeWord 0b0011_0100_1010_0101 = .seImm 4 0xA5 := by decide
theorem test_decode_sneImm : decodeWord 0b0100_0101_0001_0010 = .sneImm 5 0x12 := by decide
theorem test_decode_seReg : decodeWord 0b0101_0001_0010_1111 = .seReg 1 2 := by decide
theorem test_decode_ldImm : decodeWord 0b0110_0000_0000_1010 = .ldImm 0 0x0A := by decide
theorem test_decode_addImm : decodeWord 0b0111_1111_0000_0011 = .addImm 15 3 := by decide
theorem test_decode_ldReg : decodeWord 0b1000_0001_0010_0000 = .ldReg 1 2 := by decide
theorem test_decode_or : decodeWord 0b1000_0011_0100_0001 = .orReg 3 4 := by decide
theorem test_decode_and : decodeWord 0b1000_0011_0100_0010 = .andReg 3 4 := by decide
theorem test_decode_xor : decodeWord 0b1000_0011_0100_0011 = .xorReg 3 4 := by decide
theorem test_decode_addReg : decodeWord 0b1000_0000_0001_0100 = .addReg 0 1 := by decide
theorem test_decode_sub : decodeWord 0b1000_0011_0100_0101 = .sub 3 4 := by decide
theorem test_decode_shr : decodeWord 0b1000_0011_0100_0110 = .shr 3 4 := by decide
theorem test_decode_subn : decodeWord 0b1000_0011_0100_0111 = .subn 3 4 := by decide
theorem test_decode_shl : decodeWord 0b1000_0011_0100_1110 = .shl 3 4 := by decide
theorem test_decode_sneReg : decodeWord 0b1001_1010_1011_0000 = .sneReg 10 11 := by decide
theorem test_decode_ldI : decodeWord 0b1010_0011_0000_0001 = .ldI 0x301 := by decide
theorem test_decode_jpV0 : decodeWord 0b1011_0101_0010_0000 = .jpV0 0x520 := by decide
theorem test_decode_rnd : decodeWord 0b1100_0111_0000_1111 = .rnd 7 0x0F := by decide
theorem test_decode_drw : decodeWord 0b1101_0001_0010_0101 = .drw 1 2 5 := by decide
theorem test_decode_skp : decodeWord 0b1110_0110_1001_1110 = .skp 6 := by decide
theorem test_decode_sknp : decodeWord 0b1110_0110_1010_0001 = .sknp 6 := by decide
theorem test_decode_ldVxDt : decodeWord 0b1111_1001_0000_0111 = .ldVxDt 9 := by decide
theorem test_decode_ldVxK : decodeWord 0b1111_1001_0000_1010 = .ldVxK 9 := by decide
theorem test_decode_ldDtVx : decodeWord 0b1111_1001_0001_0101 = .ldDtVx 9 := by decide
theorem test_decode_ldStVx : decodeWord 0b1111_1001_0001_1000 = .ldStVx 9 := by decide
theorem test_decode_addIVx : decodeWord 0b1111_1001_0001_1110 = .addIVx 9 := by decide
theorem test_decode_ldFVx : decodeWord 0b1111_1001_0010_1001 = .ldFVx 9 := by decide
theorem test_decode_ldBVx : decodeWord 0b1111_1001_0011_0011 = .ldBVx 9 := by decide
theorem test_decode_ldMemVx : decodeWord 0b1111_1001_0101_0101 = .ldMemVx 9 := by decide
theorem test_decode_ldVxMem : decodeWord 0b1111_1001_0110_0101 = .ldVxMem 9 := by decide
/-- T5: the low nibble 7 alone does not select `LD Vx, DT`. -/
theorem test_decode_unmapped_F : decodeWord 0b1111_0101_0001_0111 = .nopUnknown 0xF517 := by decide
/-- R86: the document's own bytes, the first one high. -/
theorem test_decode_bytes :
    (decode [0x60, 0x0A, 0x61] = .ok (.ldImm 0 0x0A, [0x61])) ∧ (decode [0x60] = .error .truncated) :=
  ⟨rfl, rfl⟩
/-- D6: the strict decoder takes the canonical `CLS` and no alias of it. -/
theorem test_decode_strict :
    decodeWith .strict 0x00E0 = .cls ∧ decodeWith .strict 0x0000 = .nopUnknown 0x0000 := by decide
/-- The probe's bit numbering is the word's: bit 0 least significant. -/
theorem test_decodeTableWord : decodeTableWord 16 0x8014 = some (.addReg 0 1) := by decide

/-! ## The Step frame (vectors T) -/

/-- T1. -/
theorem test_unmapped_only_ticks :
    left (runWord 0x8018 (setSt (setDt State.reset 3) 1)) (fun t => (t.pc, t.dt, t.st, t.v))
      = some (0x202, 2, 0, State.reset.v) := by decide
/-- T11: the last place an instruction fits. -/
theorem test_fetch_at_FFE :
    left (runWord 0x6007 (setPc State.reset 0xFFE)) (fun t => (t.pc, readReg t 0)) = some (0x1000, 7) := by
  decide
/-- T12, T13. -/
theorem test_fetch_fault :
    faultOf (stepWith 0 (setPc State.reset 0x1000)) = some (.fetchAddress 0x1000) ∧
    faultOf (stepWith 0 (setPc State.reset 0xFFF)) = some (.fetchAddress 0x0FFF) := by decide
/-- T14: an odd PC. -/
theorem test_odd_pc :
    left (runWord 0x6B77 (setPc State.reset 0x205)) (fun t => (t.pc, readReg t 11)) = some (0x207, 0x77) := by
  decide
/-- T15: unloaded memory executes `CLS`. -/
theorem test_reset_executes_cls :
    left (step (withCells [(3, 3)] State.reset)) (fun t => (t.pc, t.fb)) = some (0x202, State.reset.fb) := by
  decide

/-! ## Control transfer (vectors F) -/

/-- F4: the popped entry stays. -/
theorem test_ret :
    left (runWord 0x00EE (push State.reset 0x0204)) (fun t => (t.sp, t.pc, readStack t 0))
      = some (0, 0x204, 0x204) := by decide
/-- F16. -/
theorem test_ret_empty : faultOf (runWord 0x00EE State.reset) = some .stackUnderflow := by decide
/-- F1: a jump to itself still ticks. -/
theorem test_jp_self :
    left (runWord 0x1204 (setDt (setPc State.reset 0x204) 2)) (fun t => (t.pc, t.dt)) = some (0x204, 1) := by
  decide
/-- F2. -/
theorem test_jp_FFF : left (runWord 0x1FFF State.reset) (fun t => t.pc) = some 0x0FFF := by decide
/-- F3. -/
theorem test_call :
    left (runWord 0x2208 (setPc State.reset 0x202)) (fun t => (readStack t 0, t.sp, t.pc))
      = some (0x204, 1, 0x208) := by decide
/-- F17: the sixteenth call succeeds and the seventeenth faults. -/
theorem test_call_depth :
    left (runWord 0x2200 { State.reset with sp := 15 }) (fun t => (t.sp, readStack t 15)) = some (16, 0x202) ∧
    faultOf (runWord 0x2200 { State.reset with sp := 16 }) = some .stackOverflow := by decide
/-- F5, F6. -/
theorem test_seImm :
    left (runWord 0x3000 (setPc State.reset 0x20A)) (fun t => t.pc) = some 0x20E ∧
    left (runWord 0x3000 (setPc (withRegs [(0, 1)]) 0x20A)) (fun t => t.pc) = some 0x20C := by decide
/-- F7, F8. -/
theorem test_sneImm :
    left (runWord 0x4105 (withRegs [(1, 5)])) (fun t => t.pc) = some 0x202 ∧
    left (runWord 0x4105 (withRegs [(1, 6)])) (fun t => t.pc) = some 0x204 := by decide
/-- F9. -/
theorem test_seReg : left (runWord 0x5120 (withRegs [(1, 7), (2, 7)])) (fun t => t.pc) = some 0x204 := by decide
/-- F11, F12. -/
theorem test_sneReg :
    left (runWord 0x9120 (withRegs [(1, 7), (2, 8)])) (fun t => t.pc) = some 0x204 ∧
    left (runWord 0x9330 (withRegs [(3, 0xAB)])) (fun t => t.pc) = some 0x202 := by decide
/-- F15: the offset is V0, whatever the x field is. -/
theorem test_jpV0 : left (runWord 0xB520 (withRegs [(0, 4), (5, 0x99)])) (fun t => t.pc) = some 0x524 := by decide
/-- F14: the sum is not cut to 12 bits. -/
theorem test_jpV0_high : left (runWord 0xBFFF (withRegs [(0, 0xFF)])) (fun t => t.pc) = some 0x10FE := by decide

/-! ## Arithmetic and logic (vectors A and B) -/

/-- A1. -/
theorem test_ldImm : left (runWord 0x600A State.reset) v0vf = some (0x0A, 0) := by decide
/-- A4: no carry is recorded. -/
theorem test_addImm : left (runWord 0x7001 (withRegs [(0, 0xFF)])) v0vf = some (0, 0) := by decide
/-- A5: VF as an ordinary destination. -/
theorem test_addImm_vf : left (runWord 0x7F03 (withRegs [(15, 0xFE)])) v0vf = some (0, 1) := by decide
/-- A6. -/
theorem test_ldReg : left (runWord 0x8120 (withRegs [(2, 0x5A)])) (fun t => readReg t 1) = some 0x5A := by decide
/-- A7: VF is not touched. -/
theorem test_or : left (runWord 0x8011 (withRegs [(0, 0xF0), (1, 0x0F), (15, 1)])) v0vf = some (0xFF, 1) := by
  decide
/-- A8. -/
theorem test_and : left (runWord 0x8012 (withRegs [(0, 0xF0), (1, 0x3C), (15, 1)])) v0vf = some (0x30, 1) := by
  decide
/-- A9. -/
theorem test_xor : left (runWord 0x8013 (withRegs [(0, 0xF0), (1, 0x3C), (15, 1)])) v0vf = some (0xCC, 1) := by
  decide
/-- B3 and B12: a carry; the old VF as the addend. -/
theorem test_addReg :
    left (runWord 0x8014 (withRegs [(0, 0xFF), (1, 1)])) v0vf = some (0, 1) ∧
    left (runWord 0x80F4 (withRegs [(0, 0xFF), (15, 1)])) v0vf = some (0, 1) := by decide
/-- B13: the flag wins, and under the alternative the sum. -/
theorem test_addReg_vf :
    left (runWord 0x8F14 (withRegs [(15, 0xC8), (1, 0x64)])) (fun t => readReg t 15) = some 1 ∧
    left (runWord 0x8F14 (writeReg (writeReg otherParams 15 0xC8) 1 0x64)) (fun t => readReg t 15) = some 0x2C := by
  decide
/-- B2: a borrow. -/
theorem test_sub : left (runWord 0x8015 (withRegs [(0, 5), (1, 10)])) v0vf = some (0xFB, 0) := by decide
/-- B8: equal operands are no borrow. -/
theorem test_sub_equal : left (runWord 0x8015 (withRegs [(0, 7), (1, 7)])) v0vf = some (0, 1) := by decide
/-- B2: the source is V0. -/
theorem test_shr : left (runWord 0x8016 (withRegs [(0, 5), (1, 10)])) v0vf = some (2, 1) := by decide
/-- B2's operands under SHIFT_SOURCE = y (R148): 10 shifted right. -/
theorem test_shr_y :
    left (runWord 0x8016 (writeReg (writeReg otherParams 0 5) 1 10)) v0vf = some (5, 0) := by decide
/-- B1 and B2. -/
theorem test_subn :
    left (runWord 0x8017 (withRegs [(0, 10), (1, 5)])) v0vf = some (0xFB, 0) ∧
    left (runWord 0x8017 (withRegs [(0, 5), (1, 10)])) v0vf = some (5, 1) := by decide
/-- B9. -/
theorem test_shl : left (runWord 0x801E (withRegs [(0, 0x81)])) v0vf = some (2, 1) := by decide
/-- B13: x = 15. -/
theorem test_shl_vf : left (runWord 0x8F1E (withRegs [(15, 0xC8)])) (fun t => readReg t 15) = some 1 := by decide
/-- A11, A12. -/
theorem test_rnd :
    left (runWord 0xC00F State.reset) v0vf = some (7, 0) ∧ left (runWord 0xC0FF State.reset) v0vf = some (0xA7, 0) := by
  decide

/-! ## Index register and memory (vectors M) -/

/-- M1: the top bits become 0. -/
theorem test_ldI : left (runWord 0xA300 (setIdx State.reset 0xFFFF)) (fun t => t.idx) = some 0x300 := by decide
/-- M3, M4: no flag, and the wrap at 65536. -/
theorem test_addI :
    left (runWord 0xF01E (setIdx (withRegs [(0, 0xFF)]) 0xFFF)) (fun t => (t.idx, readReg t 15)) = some (0x10FE, 0) ∧
    left (runWord 0xF01E (setIdx (withRegs [(0, 1)]) 0xFFFF)) (fun t => (t.idx, readReg t 15)) = some (0, 0) := by
  decide
/-- M5, M7: no mask. -/
theorem test_ldF :
    left (runWord 0xF029 (withRegs [(0, 0x0A)])) (fun t => t.idx) = some 0x82 ∧
    left (runWord 0xF029 (withRegs [(0, 0xFF)])) (fun t => t.idx) = some 0x54B := by decide
/-- M8. -/
theorem test_ldB :
    left (runWord 0xF033 (setIdx (withRegs [(0, 254)]) 0x300))
      (fun t => (readByte t 0x300, readByte t 0x301, readByte t 0x302, t.idx)) = some (2, 5, 4, 0x300) := by decide
/-- M12, M13: the last place three digits fit. -/
theorem test_ldB_edge :
    left (runWord 0xF033 (setIdx (withRegs [(0, 255)]) 0xFFD)) (fun t => (readByte t 0xFFD, readByte t 0xFFF)) = some (2, 5) ∧
    faultOf (runWord 0xF033 (setIdx (withRegs [(0, 255)]) 0xFFE)) = some (.dataAddress 0x1000) := by decide
/-- M9: V2 is not stored. -/
theorem test_ldMem :
    left (runWord 0xF155 (setIdx (withRegs [(0, 0xAA), (1, 0xBB), (2, 0xCC)]) 0x400))
      (fun t => (readByte t 0x400, readByte t 0x401, readByte t 0x402, t.idx)) = some (0xAA, 0xBB, 0, 0x400) := by
  decide
/-- M15, M14, M16. -/
theorem test_ldMem_edge :
    left (runWord 0xFF55 (setIdx (withRegs [(15, 9)]) 0xFF0)) (fun t => readByte t 0xFFF) = some 9 ∧
    faultOf (runWord 0xFF55 (setIdx State.reset 0xFF8)) = some (.dataAddress 0x1000) ∧
    faultOf (runWord 0xF055 (setIdx State.reset 0x11FD)) = some (.dataAddress 0x11FD) := by decide
/-- P3: V0 to V2 from memory. -/
theorem test_ldVxMem :
    left (runWord 0xF265 (storeBytes (setIdx State.reset 0x300) 0x300 [2, 5, 4, 8]))
      (fun t => (readReg t 0, readReg t 1, readReg t 2, readReg t 3)) = some (2, 5, 4, 0) := by decide
/-- M17, M18. -/
theorem test_ldVxMem_edge :
    left (runWord 0xF065 (storeBytes (setIdx State.reset 0xFFF) 0xFFF [6])) (fun t => readReg t 0) = some 6 ∧
    faultOf (runWord 0xF165 (setIdx State.reset 0xFFF)) = some (.dataAddress 0x1000) := by decide

/-! ## Display, keypad and timers (vectors DK) -/

/-- DK1. -/
theorem test_cls :
    left (runWord 0x00E0 (withCells [(0, 0), (31, 63)] (withRegs [(15, 1)]))) (fun t => (t.fb, readReg t 15))
      = some (State.reset.fb, 1) := by decide
/-- DK4: XOR, the collision and the bit order. -/
theorem test_drw :
    left (runWord 0xD001 (withCells [(0, 0), (0, 1), (0, 2), (0, 3)] (storeBytes (setIdx State.reset 0x300) 0x300 [0x3C])))
      (fun t => (t.fb, readReg t 15))
      = some ((withCells [(0, 0), (0, 1), (0, 4), (0, 5)] State.reset).fb, 1) := by decide
/-- DK7 under both edge policies. -/
theorem test_drw_edge :
    left (runWord 0xD012 (storeBytes (setIdx (withRegs [(0, 0x3C), (1, 0x1F)]) 0x300) 0x300 [0xFF, 0x81]))
      (fun t => t.fb)
      = some (withCells [(31, 60), (31, 61), (31, 62), (31, 63), (31, 0), (31, 1), (31, 2), (31, 3), (0, 60), (0, 3)]
          State.reset).fb ∧
    left (runWord 0xD012 (storeBytes (setIdx (writeReg (writeReg otherParams 0 0x3C) 1 0x1F) 0x300) 0x300 [0xFF, 0x81]))
      (fun t => t.fb)
      = some (withCells [(31, 60), (31, 61), (31, 62), (31, 63)] State.reset).fb := by decide
/-- DK12, DK13. -/
theorem test_skp :
    left (runWord 0xE09E (setKey 7 true (withRegs [(0, 7)]))) (fun t => t.pc) = some 0x204 ∧
    left (runWord 0xE09E (withRegs [(0, 7)])) (fun t => t.pc) = some 0x202 := by decide
/-- DK14, DK15. -/
theorem test_sknp :
    left (runWord 0xE0A1 (withRegs [(0, 7)])) (fun t => t.pc) = some 0x204 ∧
    left (runWord 0xE0A1 (setKey 7 true (withRegs [(0, 7)]))) (fun t => t.pc) = some 0x202 := by decide
/-- DK16. -/
theorem test_key_fault :
    faultOf (runWord 0xE09E (withRegs [(0, 0x10)])) = some (.keyIndex 0x10) ∧
    faultOf (runWord 0xE0A1 (withRegs [(0, 0x10)])) = some (.keyIndex 0x10) := by decide
/-- DK19. -/
theorem test_ldVxDt :
    left (runWord 0xF107 (setDt State.reset 4)) (fun t => (readReg t 1, t.dt)) = some (4, 3) := by decide
/-- DK17. -/
theorem test_ldVxK_waits :
    left (runWord 0xF30A (setDt (withRegs [(3, 9)]) 8)) (fun t => (t.pc, readReg t 3, t.dt)) = some (0x200, 9, 7) := by
  decide
/-- DK18. -/
theorem test_ldVxK_lowest :
    left (runWord 0xF30A (setKey 4 true (setKey 9 true State.reset))) (fun t => (t.pc, readReg t 3)) = some (0x202, 4) := by
  decide
/-- DK21, DK22. -/
theorem test_ldDt :
    left (runWord 0xF015 (withRegs [(0, 5)])) (fun t => t.dt) = some 4 ∧
    left (runWord 0xF015 (setDt State.reset 9)) (fun t => t.dt) = some 0 := by decide
/-- R197's example. -/
theorem test_ldSt :
    left (runWord 0xF118 (withRegs [(1, 0x10)])) (fun t => (t.st, t.dt)) = some (0x0F, 0) := by decide

/-! ## Reset and load (vectors RL) -/

/-- RL1: glyph 7 and the byte after the font. -/
theorem test_reset_memory :
    readByte State.reset 0x073 = 0xF0 ∧ readByte State.reset 0x076 = 0x40 ∧ readByte State.reset 0x04F = 0 ∧
    readByte State.reset 0x050 = 0xF0 ∧ readByte State.reset 0x09F = 0x80 ∧ readByte State.reset 0x0A0 = 0 := by
  decide
/-- RL5, RL6: old bytes stay, the font comes back. -/
theorem test_resetLoad :
    (match resetLoad [0x11] (storeBytes (storeBytes State.reset 0x200 [0xAA, 0xBB]) 0x050 [0]) with
      | .ok t => some (readByte t 0x200, readByte t 0x201, readByte t 0x050)
      | .loadTooLarge _ => none) = some (0x11, 0xBB, 0xF0) := by decide
/-- S1: the document's bytes, loaded, run their first instruction. -/
theorem test_loaded_image_runs :
    (match resetLoad [0x60, 0x0A, 0x61, 0x05, 0x80, 0x14] State.reset with
      | .ok t => left (stepWith 0xA7 t) (fun u => (readReg u 0, u.pc))
      | .loadTooLarge _ => none) = some (0x0A, 0x202) := by rfl

/-! ## Witnesses: states and operands that meet the hypotheses of the obligations, clause by clause -/

/-- The word of a Step that completes, as the step-level obligations assume it. -/
def Runs (s : State) (w : Word) : Prop := fetch s = some w ∧ ∃ t, step s = .next t

theorem witness_EncodedBytesDecodeBack :
    (Instr.drw 15 15 15).wf = true ∧ (Instr.nopUnknown 0xFFFF).wf = true := by decide

/-- Every row of the map selects some word: the hypothesis of each `Selects` is met (30 R81, canonical). -/
theorem witness_Selects :
    ([0x00E0, 0x00EE, 0x1234, 0x2FED, 0x34A5, 0x4512, 0x5120, 0x600A, 0x7F03, 0x8120, 0x8341, 0x8342, 0x8343, 0x8014,
      0x8345, 0x8346, 0x8347, 0x834E, 0x9AB0, 0xA301, 0xB520, 0xC70F, 0xD125, 0xE69E, 0xE6A1, 0xF907, 0xF90A, 0xF915,
      0xF918, 0xF91E, 0xF929, 0xF933, 0xF955, 0xF965] : List Word).all
      (fun w => w &&& (opcodeRow (decodeWord w)).1 == (opcodeRow (decodeWord w)).2 && !unmapped w) = true := by decide

theorem witness_OpcodeRowsSelectTheirInstructions :
    (∀ u, Instr.cls ≠ .nopUnknown u) ∧ (0x0AB0 : Word) &&& (opcodeRow .cls).1 = (opcodeRow .cls).2 ∧
      opcodeRow (decodeWord 0x0AB0) = opcodeRow .cls ∧ opcodeRow (decodeWord 0x00EE) ≠ opcodeRow .cls :=
  ⟨nofun, by decide, by decide, by decide⟩

theorem witness_StrictDecodeKeepsCanonicalWords :
    (Instr.shr 1 15).wf = true ∧ encode (decodeWord 0x512F) ≠ 0x512F ∧ encode (decodeWord 0x5120) = 0x5120 := by
  decide

theorem witness_StepRunsTheDecodedInstruction :
    0xFFE < (setPc State.reset 0xFFF).pc.toNat ∧ (setPc State.reset 0xFFE).pc.toNat ≤ 0xFFE := by decide

theorem witness_FetchIsBigEndian :
    State.reset.pc.toNat ≤ 0xFFE ∧ (setPc State.reset 0xFFE).pc.toNat ≤ 0xFFE := by decide

theorem witness_FetchFaultsExactlyPastTheMemory :
    step (setPc State.reset 0xFFF) = .fault (.fetchAddress 0xFFF) := rfl

/-- The last state each form completes in and the first it faults in. -/
theorem witness_FaultsAreThoseOfTheTable :
    tableFault (.call 0) { State.reset with sp := 15 } = none ∧
    tableFault (.call 0) { State.reset with sp := 16 } = some .stackOverflow ∧
    tableFault .ret { State.reset with sp := 1 } = none ∧ tableFault .ret State.reset = some .stackUnderflow ∧
    tableFault (.drw 0 0 0) (setIdx State.reset 0x1006) = none ∧
    tableFault (.drw 0 0 1) (setIdx State.reset 0x0FFF) = none ∧
    tableFault (.drw 0 0 2) (setIdx State.reset 0x0FFF) = some (.dataAddress 0x1000) ∧
    tableFault (.ldBVx 0) (setIdx State.reset 0x0FFD) = none ∧
    tableFault (.ldMemVx 0) (setIdx State.reset 0xFFFF) = some (.dataAddress 0xFFFF) ∧
    tableFault (.ldVxMem 15) (setIdx State.reset 0x0FF1) = some (.dataAddress 0x1000) ∧
    tableFault (.skp 0) (withRegs [(0, 15)]) = none ∧
    tableFault (.sknp 0) (withRegs [(0, 16)]) = some (.keyIndex 16) := by decide

theorem witness_RejectedStepChangesNothing :
    (∃ t, stepWith 0 State.reset = .next t) ∧ (∃ f, stepWith 0 (placed 0x00EE State.reset) = .fault f) :=
  ⟨⟨_, rfl⟩, ⟨_, rfl⟩⟩

theorem witness_FaultRepeatsWhateverTheKeys :
    stepWith 3 (placed 0xE09E (withRegs [(0, 0x10)])) = .fault (.keyIndex 0x10) := rfl

/-- A taken skip at the last place an instruction fits, and a jump past the memory. -/
theorem witness_ProgramCounterAfterAStep :
    Runs (placed 0x3000 (setPc State.reset 0xFFE)) 0x3000 ∧ Runs (placed 0xBFFF (withRegs [(0, 0xFF)])) 0xBFFF :=
  ⟨⟨rfl, _, rfl⟩, ⟨rfl, _, rfl⟩⟩

theorem witness_TimersTickInEveryCompletedStep :
    Runs (placed 0xF015 (withRegs [(0, 5)])) 0xF015 ∧ Runs (placed 0xF118 (withRegs [(1, 1)])) 0xF118 ∧
      Runs (setDt State.reset 255) 0x0000 :=
  ⟨⟨rfl, _, rfl⟩, ⟨rfl, _, rfl⟩, ⟨rfl, _, rfl⟩⟩

/-- `LD B`, which goes through I and is none of the three. -/
theorem witness_OnlyTheIndexInstructionsChangeI :
    Runs (placed 0xF033 State.reset) 0xF033 ∧ decodeWith State.reset.params.decodeMode 0xF033 = .ldBVx 0 :=
  ⟨⟨rfl, _, rfl⟩, rfl⟩

/-- The bytes on both sides of what `LD B` stores, and a store of all registers at the top of memory. -/
theorem witness_OnlyTheStoresChangeMemory :
    Runs (placed 0xF033 (setIdx State.reset 0x300)) 0xF033 ∧
      ¬ storedBytes (.ldBVx 0) (placed 0xF033 (setIdx State.reset 0x300)) 0x2FF ∧
      ¬ storedBytes (.ldBVx 0) (placed 0xF033 (setIdx State.reset 0x300)) 0x303 ∧
      storedBytes (.ldBVx 0) (placed 0xF033 (setIdx State.reset 0x300)) 0x302 ∧
      Runs (placed 0xFF55 (setIdx State.reset 0xFF0)) 0xFF55 :=
  ⟨⟨rfl, _, rfl⟩, fun h => absurd h.1 (by decide), fun h => absurd h.2 (by decide), And.intro (by decide) (by decide),
    ⟨rfl, _, rfl⟩⟩

/-- `OR V0, V1` writes no flag, and `OR VF, V1` may write VF. -/
theorem witness_OnlyFlagWritersChangeVF :
    Runs (placed 0x8011 State.reset) 0x8011 ∧ ¬ mayWriteVF (.orReg 0 1) ∧ mayWriteVF (.orReg 15 1) :=
  ⟨⟨rfl, _, rfl⟩, fun h => absurd (show (0 : Reg) = 15 from h) (by decide), rfl⟩

/-- A `RET`: no draw and no clear; no call; it is the one instruction left that moves SP. -/
theorem witness_DisplayStackAndKeysHaveTheirWriters :
    Runs (placed 0x00EE (push State.reset 0x204)) 0x00EE ∧ Runs (placed 0x600A State.reset) 0x600A ∧
      decodeWith State.reset.params.decodeMode 0x00EE = .ret ∧ decodeWith State.reset.params.decodeMode 0x600A = .ldImm 0 10 :=
  ⟨⟨rfl, _, rfl⟩, ⟨rfl, _, rfl⟩, rfl, rfl⟩

theorem witness_OnlyRndReadsTheRandomByte :
    fetch (placed 0x8011 State.reset) = some 0x8011 ∧ decodeWith State.reset.params.decodeMode 0x8011 = .orReg 0 1 ∧
      ∃ t, stepWith 5 (placed 0x8011 State.reset) = .next t :=
  ⟨rfl, rfl, _, rfl⟩

theorem witness_NoInstructionReadsTheSoundTimer :
    (∃ t, exec .cls State.reset = .next t) ∧ (∃ t, exec (.ldStVx 0) State.reset = .next t) :=
  ⟨⟨_, rfl⟩, ⟨_, rfl⟩⟩

theorem witness_reset_invariant : MachineInv State.reset := ⟨by decide, by decide, by decide⟩

/-- A state of the invariant that is not reset's: memory written, the stack full of the highest return
address, PC at its highest. -/
theorem witness_invariant_at_its_bounds :
    MachineInv { State.reset with
      mem := [(0, 1), (0x50, 0), (4095, 9)], pc := 0x10FE, sp := 16, stk := Vector.replicate 16 0x1000 } :=
  ⟨by decide, by decide, by decide⟩

theorem witness_EveryStepKeepsTheInvariant : MachineInv State.reset ∧ ∃ t, step State.reset = .next t :=
  ⟨witness_reset_invariant, _, rfl⟩

theorem witness_EqualContentsAreEqualMemories :
    Memory.wf defaultFontRom [(0, 1), (0x50, 0), (4095, 9)] ∧ ¬ Memory.wf defaultFontRom [(0x50, 0xF0)] := by decide

theorem witness_ResetLoadState : ([] : List Byte).length ≤ 3584 ∧ (List.replicate 3584 (0xAA : Byte)).length ≤ 3584 := by
  constructor
  · decide
  · rw [List.length_replicate]

theorem witness_OversizedImageIsRejected :
    3584 < (List.replicate 3585 (0xAA : Byte)).length ∧ (List.replicate 3584 (0xAA : Byte)).length ≤ 3584 := by
  rw [List.length_replicate, List.length_replicate]; decide

theorem witness_HostAccesses : (0 : Fin 16) ≠ 15 := by decide

theorem witness_StoresAreSeenByTheNextFetch :
    (∃ t, exec (.ldMemVx 1) (setIdx State.reset 0xFFE) = .next t) ∧ 0 + 1 ≤ (1 : Reg).val ∧
      (∃ t, exec (.ldMemVx 15) (setIdx State.reset 0xFF0) = .next t) ∧ 14 + 1 ≤ (15 : Reg).val :=
  ⟨⟨_, rfl⟩, by decide, ⟨_, rfl⟩, by decide⟩

/-- PC past the last place: the probe first puts it at 0x200. -/
theorem witness_PlacedWordIsTheOneRun :
    (placed 0x1204 (setPc State.reset 0xFFF)).pc = 0x200 ∧ (placed 0x1204 (setPc State.reset 0xFFE)).pc = 0xFFE := by
  decide

theorem witness_ReturnPopsTheStack :
    State.reset.sp.val = 0 ∧ (push State.reset 0x204).sp.val = (0 : Fin 16).val + 1 ∧
      ({ State.reset with sp := 16 } : State).sp.val = (15 : Fin 16).val + 1 := by decide

theorem witness_CallPushesTheReturnAddress :
    ({ State.reset with sp := 16 } : State).sp.val = 16 ∧ ({ State.reset with sp := 15 } : State).sp.val < 16 ∧
      State.reset.sp.val < 16 := by decide

theorem witness_CallThenReturnComesBack :
    ∃ t u, exec (.call 0x208) State.reset = .next t ∧ u.sp = t.sp ∧ (∀ k, readStack u k = readStack t k) :=
  ⟨_, _, rfl, rfl, fun _ => rfl⟩

/-- The three clauses of `ResultAndFlag`. -/
theorem witness_ResultAndFlag :
    (0 : Reg) ≠ 15 ∧ State.reset.params.vfPriority = .flag ∧ otherParams.params.vfPriority = .destination := by decide

theorem witness_ShiftsRecordTheLostBit :
    State.reset.params.shiftSource = .x ∧ otherParams.params.shiftSource ≠ .x := by decide

theorem witness_DecimalDigitsAreStored :
    (setIdx State.reset 0xFFD).idx.toNat + 2 ≤ 0xFFF ∧ 0xFFF < (setIdx State.reset 0xFFE).idx.toNat + 2 ∧
      0xFFF < (setIdx State.reset 0x1000).idx.toNat := by decide

/-- For `LD [I]` and `LD Vx, [I]`: the last place all sixteen registers fit, and the first they do not. -/
theorem witness_RegistersAreStoredAndLoaded :
    (setIdx State.reset 0xFF0).idx.toNat + (15 : Reg).val ≤ 0xFFF ∧
      0xFFF < (setIdx State.reset 0xFF1).idx.toNat + (15 : Reg).val ∧
      0xFFF < (setIdx State.reset 0xFFFF).idx.toNat + (0 : Reg).val := by decide

theorem witness_StoreThenLoadRestoresRegisters :
    ∃ t u, exec (.ldMemVx 15) (setIdx State.reset 0xFF0) = .next t ∧ u.idx = (setIdx State.reset 0xFF0).idx ∧
      ∀ k : Reg, k ≤ 15 → readByte u (0xFF0 + k.val) = readByte t (0xFF0 + k.val) :=
  ⟨_, _, rfl, rfl, fun _ _ => rfl⟩

/-- The range clauses of `DRW` where they meet, `n = 0` with I past the memory, and both cases of the
collision. -/
theorem witness_DrawXorsTheSprite :
    ((0 : Nibble).toNat = 0 ∧ 0xFFF < (setIdx State.reset 0x1006).idx.toNat) ∧
    (setIdx State.reset 0xFFF).idx.toNat + (1 : Nibble).toNat - 1 ≤ 0xFFF ∧
    0xFFF < (setIdx State.reset 0xFFF).idx.toNat + (2 : Nibble).toNat - 1 ∧
    (∃ r c, readCell (withCells [(0, 1)] (setIdx State.reset 0x050)) r c = true ∧
      spriteCovers (withCells [(0, 1)] (setIdx State.reset 0x050)) 0 0 1 r c) ∧
    (∀ r c, readCell State.reset r c = false) :=
  ⟨by decide, by decide, by decide, ⟨0, 1, by decide, And.intro (by decide) (And.intro (by decide) (by decide))⟩,
    by decide⟩

/-- A sprite over the corner covers cells at the opposite edges under Wrap and none there under Clip. -/
theorem witness_spriteCovers_edges :
    spriteCovers (setIdx (withRegs [(0, 63), (1, 31)]) 0x050) 0 1 2 31 0 ∧
    ¬ spriteCovers (setIdx (writeReg (writeReg otherParams 0 63) 1 31) 0x050) 0 1 2 31 0 :=
  ⟨And.intro (by decide) (And.intro (by decide) (by decide)), fun h => absurd (And.left (And.right h)) (by decide)⟩

theorem witness_DrawingTwiceRestoresTheFrameBuffer :
    ∃ t u, exec (.drw 0 1 1) (setIdx State.reset 0x050) = .next t ∧ exec (.drw 0 1 1) t = .next u ∧
      ∃ r c, readCell (setIdx State.reset 0x050) r c = false ∧ readCell t r c = true :=
  ⟨_, _, rfl, rfl, 0, 0, by decide, by decide⟩

theorem witness_SkipsOnKeys :
    (readReg (withRegs [(0, 15)]) 0).toNat = (15 : Fin 16).val ∧ 15 < (readReg (withRegs [(0, 16)]) 0).toNat := by decide

theorem witness_WaitForKeyPolls :
    (readKey (setKey 15 true State.reset) 15 = true ∧ ∀ j : Fin 16, j < 15 → readKey (setKey 15 true State.reset) j = false) ∧
      (readKey (setKey 0 true State.reset) 0 = true ∧ ∀ j : Fin 16, j < 0 → readKey (setKey 0 true State.reset) j = false) ∧
      ∀ k, readKey State.reset k = false := by decide

theorem witness_DelayTimerReadsBackOneLess :
    ∃ s t u, fetch s = some 0xF015 ∧ decodeWith s.params.decodeMode 0xF015 = .ldDtVx 0 ∧ step s = .next t ∧
      fetch t = some 0xF107 ∧ decodeWith t.params.decodeMode 0xF107 = .ldVxDt 1 ∧ step t = .next u :=
  ⟨storeBytes (withRegs [(0, 5)]) 0x200 [0xF0, 0x15, 0xF1, 0x07], _, _, rfl, rfl, rfl, rfl, rfl, rfl⟩

theorem witness_SelfJumpAndWaitOnlyTick :
    (fetch (placed 0x1200 State.reset) = some 0x1200 ∧ decodeWith State.reset.params.decodeMode 0x1200 = .jp 0x200 ∧
      (0x200 : Addr12).toNat = (placed 0x1200 State.reset).pc.toNat) ∧
    (fetch (placed 0xF30A State.reset) = some 0xF30A ∧ decodeWith State.reset.params.decodeMode 0xF30A = .ldVxK 3 ∧
      ∀ k, readKey (placed 0xF30A State.reset) k = false) := by decide

theorem witness_UnknownOpcodeDoesNothing :
    fetch (placed 0x8018 State.reset) = some 0x8018 ∧ unmapped 0x8018 = true := by decide

/-- States the two safety notions separate: reset completes a Step; PC past the memory does not. -/
theorem witness_StepOk : StepOk State.reset ∧ SafeFor 1 State.reset ∧ ¬ StepOk (setPc State.reset 0x1000) :=
  ⟨⟨_, rfl⟩, ⟨_, rfl, trivial⟩, fun ⟨_, h⟩ => by cases h⟩

end Sys2Proof.Tests
end

section
/-! SUPPORT. The machine's invariant through each state update, each instruction, a Step and a host request (10_state.md R23, 70_reset_and_hazards.md R244), and that nothing is refused (40_step_cycle.md R109). -/

namespace Sys2Proof.Machine

variable {s t : State}

/-! ## The invariant through the state updates -/

/-- The invariant speaks of memory, its font, PC and the stack entries alone: an update that keeps these
keeps it. -/
theorem MachineInv.of_fields_eq (hi : MachineInv s) (hparams : t.params = s.params)
    (hmem : t.mem = s.mem) (hpc : t.pc = s.pc) (hstk : t.stk = s.stk) : MachineInv t where
  mem := by rw [hparams, hmem]; exact hi.mem
  pc := by rw [hpc]; exact hi.pc
  stk k := by unfold readStack; rw [hstk]; exact hi.stk k

theorem MachineInv.setPc (hi : MachineInv s) {w : Word} (hw : w.toNat ≤ 0x10FE) :
    MachineInv (setPc s w) :=
  ⟨hi.mem, hw, hi.stk⟩

/-- PC's step to the next instruction does not wrap while PC is inside the memory (10_state.md R23). -/
theorem toNat_add_two {w : Word} (hw : w.toNat ≤ 0x1000) : (w + 2).toNat = w.toNat + 2 := by
  bv_omega

/-- A skip from a PC that an instruction inside the memory leaves behind stays in reach. -/
theorem MachineInv.skipIf (hi : MachineInv s) (hpc : s.pc.toNat ≤ 0x1000) (c : Bool) :
    MachineInv (skipIf s c) := by
  unfold Machine.skipIf
  split
  · exact hi.setPc (by rw [toNat_add_two hpc]; omega)
  · exact hi

theorem MachineInv.push (hi : MachineInv s) {w : Word} (hw : w.toNat ≤ 0x1000)
    (hsp : s.sp.val < 16) : MachineInv (push s w) where
  mem := by rw [push_params, push_mem]; exact hi.mem
  pc := by rw [push_pc]; exact hi.pc
  stk k := by
    rw [readStack_push s w k hsp]
    split
    · exact hw
    · exact hi.stk k

theorem MachineInv.storeBytes (hi : MachineInv s) {a : Nat} {bs : List Byte}
    (ha : a + bs.length ≤ Config.memSize) : MachineInv (storeBytes s a bs) :=
  ⟨Memory.wf_writeList _ _ _ _ hi.mem ha, hi.pc, hi.stk⟩

/-- The pre-advance of a Step that could fetch. -/
theorem MachineInv.beginStep (hi : MachineInv s) (hpc : (s.pc + 2).toNat ≤ 0x1000) (r : Byte) :
    MachineInv (beginStep r s) :=
  ⟨hi.mem, Nat.le_trans hpc (by decide), hi.stk⟩

/-! ## The invariant through the execute phase -/

/-- The top of a stack is one of its entries. -/
theorem topOfStack_eq_some {w : Word} (h : topOfStack s = some w) : ∃ k, w = readStack s k := by
  unfold topOfStack at h
  split at h
  · cases h
  · exact ⟨⟨s.sp.val - 1, by have := s.sp.isLt; omega⟩, (Option.some.inj h).symm⟩

theorem zextAddr_toNat (nnn : Addr12) : (zextAddr nnn).toNat = nnn.toNat := by
  have := nnn.isLt
  rw [zextAddr, BitVec.toNat_setWidth]
  omega

theorem zextByte_toNat (b : Byte) : (zextByte b).toNat = b.toNat := by
  have := b.isLt
  rw [zextByte, BitVec.toNat_setWidth]
  omega

/-- R127: a jump through V0 does not wrap. -/
theorem zextAddr_add_zextByte_toNat (nnn : Addr12) (b : Byte) :
    (zextAddr nnn + zextByte b).toNat = nnn.toNat + b.toNat := by
  have := nnn.isLt
  have := b.isLt
  rw [BitVec.toNat_add, zextAddr_toNat, zextByte_toNat]
  omega

/-- An instruction executed past the pre-advance of a fetch inside the memory keeps the invariant. PC is
at least 2 there, which the polling `LD Vx, K` takes back (R195), and at most 0x1000, which `CALL` pushes
and the skips add 2 to. -/
theorem MachineInv.exec (hi : MachineInv s) (hlo : 2 ≤ s.pc.toNat) (hhi : s.pc.toNat ≤ 0x1000)
    {i : Instr} (h : exec i s = .next t) : MachineInv t := by
  cases i with
  | cls | ldImm | addImm | ldReg | orReg | andReg | xorReg | rnd | ldI | addIVx | ldFVx
  | ldVxDt | ldDtVx | ldStVx =>
    obtain rfl := Host.Outcome.next.inj h
    exact hi.of_fields_eq rfl rfl rfl rfl
  | addReg | sub | shr | subn | shl =>
    obtain rfl := Host.Outcome.next.inj h
    exact hi.of_fields_eq (writeResultFlag_params ..) (writeResultFlag_mem ..)
      (writeResultFlag_pc ..) (writeResultFlag_stk ..)
  | nopUnknown =>
    obtain rfl := Host.Outcome.next.inj h
    exact hi
  | seImm | sneImm | seReg | sneReg =>
    obtain rfl := Host.Outcome.next.inj h
    exact hi.skipIf hhi _
  | skp x | sknp x =>
    simp only [Machine.exec, execSkp, execSknp] at h
    split at h
    · cases h
    · obtain rfl := Host.Outcome.next.inj h
      exact hi.skipIf hhi _
  | jp nnn =>
    obtain rfl := Host.Outcome.next.inj h
    exact hi.setPc (by have := nnn.isLt; rw [zextAddr_toNat]; omega)
  | jpV0 nnn =>
    obtain rfl := Host.Outcome.next.inj h
    have := nnn.isLt
    have := (readReg s 0).isLt
    exact hi.setPc (by rw [zextAddr_add_zextByte_toNat]; omega)
  | call nnn =>
    simp only [Machine.exec, execCall] at h
    split at h
    · cases h
    · obtain rfl := Host.Outcome.next.inj h
      have hsp : s.sp.val < 16 := by have := s.sp.isLt; omega
      exact (hi.push hhi hsp).setPc (by have := nnn.isLt; rw [zextAddr_toNat]; omega)
  | ret =>
    simp only [Machine.exec, execRet] at h
    split at h
    · cases h
    · obtain rfl := Host.Outcome.next.inj h
      obtain ⟨k, rfl⟩ := topOfStack_eq_some ‹_›
      have hdrop : MachineInv (dropTop s) := hi.of_fields_eq rfl rfl rfl rfl
      exact hdrop.setPc (Nat.le_trans (hi.stk k) (by decide))
  | ldVxK =>
    simp only [Machine.exec, execLdVxK] at h
    split at h
    · obtain rfl := Host.Outcome.next.inj h
      exact hi.of_fields_eq rfl rfl rfl rfl
    · obtain rfl := Host.Outcome.next.inj h
      have hback : (s.pc - 2).toNat = s.pc.toNat - 2 := BitVec.toNat_sub_of_le hlo
      exact hi.setPc (by omega)
  | drw | ldVxMem =>
    obtain ⟨-, h⟩ := withDataRange_eq_next s _ _ t h
    obtain rfl := Host.Outcome.next.inj h
    exact hi.of_fields_eq rfl rfl rfl rfl
  | ldBVx =>
    obtain ⟨hrange, h⟩ := withDataRange_eq_next s _ _ t h
    obtain rfl := Host.Outcome.next.inj h
    exact hi.storeBytes (show s.idx.toNat + 3 ≤ 4096 by omega)
  | ldMemVx x =>
    obtain ⟨hrange, h⟩ := withDataRange_eq_next s _ _ t h
    obtain rfl := Host.Outcome.next.inj h
    exact hi.storeBytes (by
      rw [regList_length]
      show s.idx.toNat + (x.val + 1) ≤ 4096
      unfold regCount at hrange
      omega)

/-! ## The invariant through a Step and a host request -/

/-- A completed Step keeps the invariant, whatever its random byte. -/
theorem MachineInv.stepWith (hi : MachineInv s) {r : Byte} (h : stepWith r s = .next t) :
    MachineInv t := by
  obtain ⟨hpc, w, u, -, hexec, rfl⟩ := stepWith_eq_next s r t h
  have hadv : (s.pc + 2).toNat = s.pc.toNat + 2 := toNat_add_two (by omega)
  have hlo : 2 ≤ (Machine.beginStep r s).pc.toNat := by rw [beginStep_pc]; omega
  have hhi : (Machine.beginStep r s).pc.toNat ≤ 0x1000 := by rw [beginStep_pc]; omega
  have hu : MachineInv u := (hi.beginStep hhi r).exec hlo hhi hexec
  exact hu.of_fields_eq rfl rfl rfl rfl

/-- An accepted image has at most 3584 bytes and is stored from 0x200 after the reset part. -/
theorem resetLoad_eq_ok {image : List Byte} (h : resetLoad image s = .ok t) :
    image.length ≤ Config.maxImage ∧ t = storeBytes (resetForLoad s) Config.progOrigin image := by
  unfold resetLoad at h
  split at h
  · cases h
  · exact ⟨Nat.le_of_not_lt ‹_›, (LoadOutcome.ok.inj h).symm⟩

theorem MachineInv.resetForLoad (hi : MachineInv s) : MachineInv (resetForLoad s) where
  mem := Memory.wf_writeList _ _ _ _ hi.mem (by rw [Vector.length_toList]; decide)
  pc := show (0x200 : Word).toNat ≤ 0x10FE by decide
  stk k := by simp [readStack, Machine.resetForLoad, State.powerOn]

theorem MachineInv.resetLoad (hi : MachineInv s) {image : List Byte}
    (h : resetLoad image s = .ok t) : MachineInv t := by
  obtain ⟨hlen, rfl⟩ := resetLoad_eq_ok h
  exact hi.resetForLoad.storeBytes (Nat.add_le_add_left hlen Config.progOrigin)

/-- Every host request keeps the invariant: an accepted one by what it does, a rejected one because the
state stays. -/
theorem MachineInv.hostStep (hi : MachineInv s) (q : HostRequest) : MachineInv (hostStep q s).2 := by
  cases q with
  | step r =>
    cases h : Machine.stepWith r s <;> simp only [Machine.hostStep, h]
    case next t => exact hi.stepWith h
    case fault | refused => exact hi
  | resetLoad image =>
    cases h : Machine.resetLoad image s <;> simp only [Machine.hostStep, h]
    case ok t => exact hi.resetLoad h
    case loadTooLarge => exact hi
  | setKey k b => exact hi.of_fields_eq rfl rfl rfl rfl

/-! ## Nothing is refused -/

theorem withDataRange_ne_refused {n : Nat} {k : Result} {e : Refusal} (hk : k ≠ .refused e) :
    withDataRange s n k ≠ .refused e := by
  unfold withDataRange
  split
  · exact hk
  · nofun

/-- Every instruction has a meaning in every state: it completes or faults. -/
theorem exec_ne_refused (i : Instr) (s : State) (e : Refusal) : exec i s ≠ .refused e := by
  cases i with
  | cls | jp | seImm | sneImm | seReg | sneReg | jpV0 | ldImm | addImm | ldReg | orReg | andReg
  | xorReg | addReg | sub | shr | subn | shl | rnd | ldI | addIVx | ldFVx | ldVxDt | ldDtVx | ldStVx
  | nopUnknown => nofun
  | drw | ldBVx | ldMemVx | ldVxMem => exact withDataRange_ne_refused nofun
  | ret | call | skp | sknp | ldVxK =>
    simp only [exec, execRet, execCall, execSkp, execSknp, execLdVxK]
    split <;> nofun

theorem stepWith_ne_refused (r : Byte) (s : State) (e : Refusal) : stepWith r s ≠ .refused e := by
  unfold stepWith
  split
  · nofun
  · next w _ =>
    intro h
    cases hexec : exec (decodeWith s.params.decodeMode w) (beginStep r s) with
    | next u => rw [hexec] at h; cases h
    | fault f => rw [hexec] at h; cases h
    | refused e' => exact exec_ne_refused _ _ e' hexec

theorem hostStep_ne_refused (q : HostRequest) (s : State) (e : Refusal) :
    (hostStep q s).1 ≠ .refused e := by
  cases q with
  | step r =>
    cases h : stepWith r s <;> simp only [hostStep, h]
    case next | fault => nofun
    case refused e' => exact absurd h (stepWith_ne_refused r s e')
  | resetLoad image => cases h : resetLoad image s <;> simp only [hostStep, h] <;> nofun
  | setKey k b => nofun

/-! ## Runs of host requests -/

theorem hostRun_cons (q : HostRequest) (qs : List HostRequest) (s : State) :
    hostRun (q :: qs) s =
      ((hostStep q s).1 :: (hostRun qs (hostStep q s).2).1, (hostRun qs (hostStep q s).2).2) := rfl

theorem MachineInv.hostRun (qs : List HostRequest) (hi : MachineInv s) :
    MachineInv (hostRun qs s).2 := by
  induction qs generalizing s with
  | nil => exact hi
  | cons q qs ih => rw [hostRun_cons]; exact ih (hi.hostStep q)

theorem hostRun_length (qs : List HostRequest) (s : State) :
    (hostRun qs s).1.length = qs.length := by
  induction qs generalizing s with
  | nil => rfl
  | cons q qs ih => rw [hostRun_cons, List.length_cons, List.length_cons, ih]

theorem hostRun_ne_refused (qs : List HostRequest) (s : State) :
    ∀ r ∈ (hostRun qs s).1, ∀ e, r ≠ .refused e := by
  induction qs generalizing s with
  | nil => nofun
  | cons q qs ih =>
    rw [hostRun_cons]
    exact List.forall_mem_cons.2 ⟨hostStep_ne_refused q s, ih _⟩

/-- Settles O25, by induction on the requests: each one keeps the invariant and is not refused. -/
theorem everyRunKeepsTheInvariant : Obligations.EveryRunKeepsTheInvariant :=
  fun qs s hi => ⟨hi.hostRun qs, hostRun_length qs s, hostRun_ne_refused qs s⟩

/-! ## The host's accesses (00_scope.md R14, R16) -/

/-- A key reads as set last. -/
theorem readKey_setKey (k j : Fin 16) (b : Bool) (s : State) :
    readKey (setKey k b s) j = if j = k then b else readKey s j := by
  simp only [readKey, setKey, Vector.getElem_set, Fin.val_inj, eq_comm]

theorem tone_eq_true_iff (s : State) : tone s = true ↔ s.st ≠ 0 := by
  rw [tone, readSoundTimer, bne_iff_ne]

/-- Settles O30: each access is one read or one write of its own field. -/
theorem hostAccesses : Obligations.HostAccesses := by
  refine ⟨fun k b s => ⟨rfl, ?_, fun j hj => ?_, rfl⟩,
    fun s => ⟨fun _ _ => rfl, rfl, tone_eq_true_iff s⟩⟩
  · rw [readKey_setKey, if_pos rfl]
  · rw [readKey_setKey, if_neg hj]

end Sys2Proof.Machine
end

section
/-! SUPPORT. What each instruction may change: its footprint, and one frame lemma for the execute phase from which the writers of each part of the state follow (10_state.md R20 to R28). -/

namespace Sys2Proof.Machine

variable {s t u : State} {f : Footprint}

/-! ## A footprint through the state updates -/

theorem ChangesOnly.refl (f : Footprint) (s : State) : ChangesOnly f s s :=
  ⟨fun _ _ => rfl, fun _ _ => rfl, fun _ => rfl, fun _ => rfl, fun _ => rfl, fun _ _ => rfl,
    fun _ => rfl, fun _ => rfl, fun _ _ _ => rfl, rfl, rfl, rfl, rfl⟩

theorem ChangesOnly.trans (h : ChangesOnly f s t) (h' : ChangesOnly f t u) : ChangesOnly f s u where
  regs j hj := (h'.regs j hj).trans (h.regs j hj)
  bytes a ha := (h'.bytes a ha).trans (h.bytes a ha)
  idx hf := (h'.idx hf).trans (h.idx hf)
  pc hf := (h'.pc hf).trans (h.pc hf)
  sp hf := (h'.sp hf).trans (h.sp hf)
  stk hf k := (h'.stk hf k).trans (h.stk hf k)
  dt hf := (h'.dt hf).trans (h.dt hf)
  st hf := (h'.st hf).trans (h.st hf)
  display hf r c := (h'.display hf r c).trans (h.display hf r c)
  key := h'.key.trans h.key
  rand := h'.rand.trans h.rand
  steps := h'.steps.trans h.steps
  params := h'.params.trans h.params

theorem ChangesOnly.writeReg {x : Reg} (hf : x ∈ f.regs) (s : State) (b : Byte) :
    ChangesOnly f s (writeReg s x b) :=
  { ChangesOnly.refl f s with
    regs := fun j hj => readReg_writeReg_ne s x j b fun hjx => hj (hjx ▸ hf) }

theorem ChangesOnly.loadRegs {bs : List Byte} (hf : ∀ j : Reg, j.val < bs.length → j ∈ f.regs)
    (s : State) : ChangesOnly f s (loadRegs s bs) :=
  { ChangesOnly.refl f s with
    regs := fun j hj => by rw [readReg_loadRegs, dif_neg fun h => hj (hf j h)] }

theorem ChangesOnly.storeBytes {a : Nat} {bs : List Byte}
    (hf : ∀ p, a ≤ p → p < a + bs.length → f.bytes p) (s : State) :
    ChangesOnly f s (storeBytes s a bs) :=
  { ChangesOnly.refl f s with
    bytes := fun p hp => by
      rw [readByte_storeBytes, dif_neg fun ⟨hlo, hhi⟩ => hp (hf p hlo (by omega))] }

theorem ChangesOnly.setIdx (hf : f.idx = true) (s : State) (w : Word) :
    ChangesOnly f s (setIdx s w) :=
  { ChangesOnly.refl f s with idx := fun h => absurd hf (by simp [h]) }

theorem ChangesOnly.setPc (hf : f.pc = true) (s : State) (w : Word) :
    ChangesOnly f s (setPc s w) :=
  { ChangesOnly.refl f s with pc := fun h => absurd hf (by simp [h]) }

theorem ChangesOnly.setDt (hf : f.dt = true) (s : State) (b : Byte) :
    ChangesOnly f s (setDt s b) :=
  { ChangesOnly.refl f s with dt := fun h => absurd hf (by simp [h]) }

theorem ChangesOnly.setSt (hf : f.st = true) (s : State) (b : Byte) :
    ChangesOnly f s (setSt s b) :=
  { ChangesOnly.refl f s with st := fun h => absurd hf (by simp [h]) }

theorem ChangesOnly.setFb (hf : f.display = true) (s : State) (fb : Vector (Vector Bool 64) 32) :
    ChangesOnly f s (setFb s fb) :=
  { ChangesOnly.refl f s with display := fun h => absurd hf (by simp [h]) }

theorem ChangesOnly.dropTop (hf : f.stack = true) (s : State) : ChangesOnly f s (dropTop s) :=
  { ChangesOnly.refl f s with sp := fun h => absurd hf (by simp [h]) }

theorem ChangesOnly.push (hf : f.stack = true) (s : State) (w : Word) :
    ChangesOnly f s (push s w) := by
  unfold Machine.push
  split
  · exact { ChangesOnly.refl f s with
      sp := fun h => absurd hf (by simp [h])
      stk := fun h => absurd hf (by simp [h]) }
  · exact .refl f s

theorem ChangesOnly.skipIf (hf : f.pc = true) (s : State) (c : Bool) :
    ChangesOnly f s (skipIf s c) := by
  unfold Machine.skipIf
  split
  · exact .setPc hf s _
  · exact .refl f s

theorem ChangesOnly.writeResultFlag {x : Reg} (hx : x ∈ f.regs) (hvf : regVF ∈ f.regs) (s : State)
    (r b : Byte) : ChangesOnly f s (writeResultFlag s x r b) := by
  unfold Machine.writeResultFlag
  split
  · exact (writeReg hx s r).trans (writeReg hvf _ b)
  · exact (writeReg hvf s b).trans (writeReg hx _ r)

/-! ## What an instruction that completes conditionally did -/

/-- `CALL` completes below 16 entries. -/
theorem exec_call_eq_next {nnn : Addr12} (h : exec (.call nnn) s = .next t) :
    s.sp.val < 16 ∧ t = setPc (push s s.pc) (zextAddr nnn) := by
  simp only [exec, execCall] at h
  split at h
  · cases h
  · exact ⟨by have := s.sp.isLt; omega, (Host.Outcome.next.inj h).symm⟩

/-- `RET` completes with an entry to pop, and goes there. -/
theorem exec_ret_eq_next (h : exec .ret s = .next t) :
    ∃ k : Fin 16, s.sp.val = k.val + 1 ∧ t = setPc (dropTop s) (readStack s k) := by
  have hsp : s.sp.val ≠ 0 := fun h0 => by simp [exec, execRet, topOfStack_of_zero s h0, raise] at h
  let k : Fin 16 := ⟨s.sp.val - 1, by have := s.sp.isLt; omega⟩
  have hk : s.sp.val = k.val + 1 := by simp only [k]; omega
  simp only [exec, execRet, topOfStack_of_pos s k hk] at h
  exact ⟨k, hk, (Host.Outcome.next.inj h).symm⟩

/-- A byte is a key index when it is the key's number. -/
theorem keyIndex_eq_some {b : Byte} {k : Fin 16} : keyIndex b = some k ↔ k.val = b.toNat := by
  unfold keyIndex
  split
  · rw [Option.some_inj, Fin.ext_iff, eq_comm]
  · exact ⟨nofun, fun h => absurd k.isLt (by omega)⟩

theorem exec_skp_eq_next {x : Reg} (h : exec (.skp x) s = .next t) :
    ∃ k : Fin 16, k.val = (readReg s x).toNat ∧ t = skipIf s (readKey s k) := by
  simp only [exec, execSkp] at h
  split at h
  · cases h
  · next k hk => exact ⟨k, keyIndex_eq_some.1 hk, (Host.Outcome.next.inj h).symm⟩

theorem exec_sknp_eq_next {x : Reg} (h : exec (.sknp x) s = .next t) :
    ∃ k : Fin 16, k.val = (readReg s x).toNat ∧ t = skipIf s (!readKey s k) := by
  simp only [exec, execSknp] at h
  split at h
  · cases h
  · next k hk => exact ⟨k, keyIndex_eq_some.1 hk, (Host.Outcome.next.inj h).symm⟩

/-- `LD Vx, K` takes a pressed key or, with none pressed, goes back to its own address. -/
theorem exec_ldVxK_eq_next {x : Reg} (h : exec (.ldVxK x) s = .next t) :
    (∃ k, readKey s k = true ∧ t = writeReg s x (BitVec.ofNat 8 k.val)) ∨
    ((∀ k, readKey s k = false) ∧ t = setPc s (s.pc - 2)) := by
  simp only [exec, execLdVxK] at h
  split at h
  · next k hk =>
    exact .inl ⟨k, (lowestKey_eq_some s k hk).1, (Host.Outcome.next.inj h).symm⟩
  · next hk => exact .inr ⟨lowestKey_eq_none s hk, (Host.Outcome.next.inj h).symm⟩

/-! ## The footprint of an instruction -/

/-- What an instruction executed in `s` may change, form by form. -/
def footprint (i : Instr) (s : State) : Footprint :=
  match i with
  | .cls => { display := true }
  | .drw _ _ _ => { regs := [regVF], display := true }
  | .call _ | .ret => { pc := true, stack := true }
  | .jp _ | .jpV0 _ | .seImm _ _ | .sneImm _ _ | .seReg _ _ | .sneReg _ _ | .skp _ | .sknp _ =>
    { pc := true }
  | .ldVxK x => { regs := [x], pc := true }
  | .ldImm x _ | .addImm x _ | .ldReg x _ | .orReg x _ | .andReg x _ | .xorReg x _ | .rnd x _
  | .ldVxDt x => { regs := [x] }
  | .addReg x _ | .sub x _ | .shr x _ | .subn x _ | .shl x _ => { regs := [x, regVF] }
  | .ldVxMem x => { regs := (List.finRange 16).filter (· ≤ x) }
  | .ldBVx _ | .ldMemVx _ => { bytes := storedBytes i s }
  | .ldI _ | .addIVx _ | .ldFVx _ => { idx := true }
  | .ldDtVx _ => { dt := true }
  | .ldStVx _ => { st := true }
  | .nopUnknown _ => {}

/-- An instruction that completes changes nothing outside its footprint. -/
theorem exec_changesOnly {i : Instr} (h : exec i s = .next t) : ChangesOnly (footprint i s) s t := by
  cases i with
  | cls =>
    obtain rfl := Host.Outcome.next.inj h
    exact .setFb rfl s _
  | drw =>
    obtain ⟨-, h⟩ := withDataRange_eq_next s _ _ t h
    obtain rfl := Host.Outcome.next.inj h
    exact (ChangesOnly.setFb rfl s _).trans (.writeReg (.head _) _ _)
  | call =>
    obtain ⟨-, rfl⟩ := exec_call_eq_next h
    exact (ChangesOnly.push rfl s _).trans (.setPc rfl _ _)
  | ret =>
    obtain ⟨k, -, rfl⟩ := exec_ret_eq_next h
    exact (ChangesOnly.dropTop rfl s).trans (.setPc rfl _ _)
  | jp | jpV0 =>
    obtain rfl := Host.Outcome.next.inj h
    exact .setPc rfl s _
  | seImm | sneImm | seReg | sneReg =>
    obtain rfl := Host.Outcome.next.inj h
    exact .skipIf rfl s _
  | skp =>
    obtain ⟨k, -, rfl⟩ := exec_skp_eq_next h
    exact .skipIf rfl s _
  | sknp =>
    obtain ⟨k, -, rfl⟩ := exec_sknp_eq_next h
    exact .skipIf rfl s _
  | ldVxK =>
    obtain ⟨k, -, rfl⟩ | ⟨-, rfl⟩ := exec_ldVxK_eq_next h
    · exact .writeReg (.head _) s _
    · exact .setPc rfl s _
  | ldImm | addImm | ldReg | orReg | andReg | xorReg | rnd | ldVxDt =>
    obtain rfl := Host.Outcome.next.inj h
    exact .writeReg (.head _) s _
  | addReg | sub | shr | subn | shl =>
    obtain rfl := Host.Outcome.next.inj h
    exact .writeResultFlag (.head _) (.tail _ (.head _)) s _ _
  | ldVxMem x =>
    obtain ⟨-, h⟩ := withDataRange_eq_next s _ _ t h
    obtain rfl := Host.Outcome.next.inj h
    refine .loadRegs (fun j hj => ?_) s
    rw [loadBytes_length] at hj
    exact List.mem_filter.2 ⟨List.mem_finRange j, decide_eq_true (Nat.le_of_lt_succ hj)⟩
  | ldBVx =>
    obtain ⟨-, h⟩ := withDataRange_eq_next s _ _ t h
    obtain rfl := Host.Outcome.next.inj h
    refine .storeBytes (fun p hlo hhi => ?_) s
    exact ⟨hlo, Nat.le_of_lt_succ hhi⟩
  | ldMemVx x =>
    obtain ⟨-, h⟩ := withDataRange_eq_next s _ _ t h
    obtain rfl := Host.Outcome.next.inj h
    refine .storeBytes (fun p hlo hhi => ?_) s
    rw [regList_length] at hhi
    exact ⟨hlo, Nat.le_of_lt_succ hhi⟩
  | ldI | addIVx | ldFVx =>
    obtain rfl := Host.Outcome.next.inj h
    exact .setIdx rfl s _
  | ldDtVx =>
    obtain rfl := Host.Outcome.next.inj h
    exact .setDt rfl s _
  | ldStVx =>
    obtain rfl := Host.Outcome.next.inj h
    exact .setSt rfl s _
  | nopUnknown =>
    obtain rfl := Host.Outcome.next.inj h
    exact .refl _ s

/-- VF is in the footprint of R21's writers alone. -/
theorem mayWriteVF_of_mem_footprint {i : Instr} (h : regVF ∈ (footprint i s).regs) :
    mayWriteVF i := by
  cases i with
  | addReg | sub | shr | subn | shl | drw => trivial
  | ldImm | addImm | ldReg | orReg | andReg | xorReg | rnd | ldVxDt | ldVxK =>
    exact (List.mem_singleton.1 h).symm
  | ldVxMem x =>
    have hx : 15 ≤ x := of_decide_eq_true (List.mem_filter.1 h).2
    exact Fin.le_antisymm (Fin.le_last x) hx
  | _ => cases h

theorem footprint_display_eq_false {i : Instr} (hcls : i ≠ .cls) (hdrw : ∀ x y n, i ≠ .drw x y n) :
    (footprint i s).display = false := by
  cases i with
  | cls => exact absurd rfl hcls
  | drw x y n => exact absurd rfl (hdrw x y n)
  | _ => rfl

theorem footprint_stack_eq_false {i : Instr} (hcall : ∀ a, i ≠ .call a) (hret : i ≠ .ret) :
    (footprint i s).stack = false := by
  cases i with
  | call a => exact absurd rfl (hcall a)
  | ret => exact absurd rfl hret
  | _ => rfl

/-- Only `CALL` writes a stack entry: `RET` leaves the popped one as it is (R24). -/
theorem exec_readStack {i : Instr} (hcall : ∀ a, i ≠ .call a) (h : exec i s = .next t)
    (k : Fin 16) : readStack t k = readStack s k := by
  by_cases hret : i = .ret
  · subst hret
    obtain ⟨j, -, rfl⟩ := exec_ret_eq_next h
    rfl
  · exact (exec_changesOnly h).stk (footprint_stack_eq_false hcall hret) k

end Sys2Proof.Machine
end

section
/-! SUPPORT. The state after PowerOn and after ResetLoad, and what a completed Step leaves in PC, VF, the display, the stack and the keys (10_state.md R21 to R35). -/

namespace Sys2Proof.Machine

variable {s t : State}

/-! ## A completed Step (10_state.md R21 to R28) -/

/-- Settles O22: the invariant through the pre-advance, the execute phase and the tick. -/
theorem everyStepKeepsTheInvariant : Obligations.EveryStepKeepsTheInvariant :=
  fun _ _ hi h => hi.stepWith h

/-- A completed Step executed the instruction it fetched, past the pre-advance, and ticked. -/
theorem step_eq_next {w : Word} (hw : fetch s = some w) (h : step s = .next t) :
    s.pc.toNat ≤ 0xFFE ∧ ∃ u, exec (decodeWith s.params.decodeMode w)
      (beginStep (Config.rand s.steps) s) = .next u ∧ t = tick u := by
  obtain ⟨hpc, w', u, hw', hexec, rfl⟩ := stepWith_eq_next s _ t h
  obtain rfl : w' = w := Option.some.inj (hw'.symm.trans hw)
  exact ⟨hpc, u, hexec, rfl⟩

/-- PC after a skip instruction of a Step whose fetch was inside the memory. -/
theorem skipIf_beginStep_pc_toNat (hpc : s.pc.toNat ≤ 0xFFE) (r : Byte) {c d : Bool} (hcd : c = d) :
    (skipIf (beginStep r s) c).pc.toNat = if d then s.pc.toNat + 4 else s.pc.toNat + 2 := by
  subst hcd
  have hadv : (s.pc + 2).toNat = s.pc.toNat + 2 := toNat_add_two (by omega)
  cases c with
  | false => exact hadv
  | true => exact (toNat_add_two (by rw [beginStep_pc]; omega)).trans (congrArg (· + 2) hadv)

/-- The key whose number V[x] holds is the only one `SKP` and `SKNP` can mean (R192, R193). -/
theorem decide_exists_key {b : Byte} {k : Fin 16} (hk : k.val = b.toNat) :
    decide (∃ j : Fin 16, j.val = b.toNat ∧ readKey s j = true) = readKey s k := by
  rw [Bool.eq_iff_iff, decide_eq_true_iff]
  exact ⟨fun ⟨_, hj, hdown⟩ => Fin.ext (hj.trans hk.symm) ▸ hdown, fun hdown => ⟨k, hk, hdown⟩⟩

/-- R23's table holds of the execute phase: the control transfers set PC, every other instruction leaves
it at the fetch address plus 2. -/
theorem exec_beginStep_pc_toNat (hpc : s.pc.toNat ≤ 0xFFE) {r : Byte} {i : Instr}
    (h : exec i (beginStep r s) = .next t) : t.pc.toNat = tablePc i s := by
  have hadv : (s.pc + 2).toNat = s.pc.toNat + 2 := toNat_add_two (by omega)
  cases i with
  | jp nnn =>
    obtain rfl := Host.Outcome.next.inj h
    exact zextAddr_toNat nnn
  | jpV0 nnn =>
    obtain rfl := Host.Outcome.next.inj h
    exact zextAddr_add_zextByte_toNat nnn _
  | call nnn =>
    obtain ⟨-, rfl⟩ := exec_call_eq_next h
    exact zextAddr_toNat nnn
  | ret =>
    obtain ⟨k, hk, rfl⟩ := exec_ret_eq_next h
    rw [beginStep_sp] at hk
    simp [tablePc, hk]
  | seImm | sneImm | seReg | sneReg =>
    obtain rfl := Host.Outcome.next.inj h
    exact skipIf_beginStep_pc_toNat hpc r (by simp [bne, beq_eq_decide])
  | skp x =>
    obtain ⟨k, hk, rfl⟩ := exec_skp_eq_next h
    exact skipIf_beginStep_pc_toNat hpc r (decide_exists_key hk).symm
  | sknp x =>
    obtain ⟨k, hk, rfl⟩ := exec_sknp_eq_next h
    exact skipIf_beginStep_pc_toNat hpc r (congrArg (!·) (decide_exists_key hk).symm)
  | ldVxK x =>
    obtain ⟨k, hk, rfl⟩ | ⟨hnone, rfl⟩ := exec_ldVxK_eq_next h
    · exact hadv.trans (if_pos ⟨k, hk⟩).symm
    · have hback : (s.pc + 2 - 2 : Word).toNat = s.pc.toNat := by rw [BitVec.add_sub_cancel]
      exact hback.trans (if_neg fun ⟨k, hk⟩ => absurd (hnone k) (by simp [hk])).symm
  | _ => exact (congrArg BitVec.toNat ((exec_changesOnly h).pc rfl)).trans hadv

/-- Settles O14: the tick leaves PC where the execute phase put it. -/
theorem programCounterAfterAStep : Obligations.ProgramCounterAfterAStep := by
  intro s t w hw h
  obtain ⟨hpc, u, hexec, rfl⟩ := step_eq_next hw h
  rw [tick_pc]
  exact exec_beginStep_pc_toNat hpc hexec

/-- Settles O18: VF is outside the footprint of every other instruction. -/
theorem onlyFlagWritersChangeVF : Obligations.OnlyFlagWritersChangeVF := by
  intro s t w hw h hvf
  obtain ⟨-, u, hexec, rfl⟩ := step_eq_next hw h
  exact (exec_changesOnly hexec).regs 15 (mt mayWriteVF_of_mem_footprint hvf)

/-- Settles O19: the display and the stack are in the footprints of their writers alone, keys and
parameters in none. -/
theorem displayStackAndKeysHaveTheirWriters : Obligations.DisplayStackAndKeysHaveTheirWriters := by
  intro s t w hw h
  obtain ⟨-, u, hexec, rfl⟩ := step_eq_next hw h
  have hu := exec_changesOnly hexec
  refine ⟨fun hdrw hcls => hu.display (footprint_display_eq_false hcls hdrw),
    fun hcall => ⟨fun k => (exec_readStack hcall hexec k :),
      fun hret => hu.sp (footprint_stack_eq_false hcall hret)⟩,
    fun k => ?_, hu.params, hu.steps⟩
  exact congrArg (fun key : Vector Bool 16 => key[k.val]) hu.key

/-! ## Nothing reads ST (10_state.md R26) -/

theorem setSt_skipIf (s : State) (c : Bool) (b : Byte) :
    setSt (skipIf s c) b = skipIf (setSt s b) c :=
  apply_ite (setSt · b) (c = true) _ _

theorem setSt_push (s : State) (w : Word) (b : Byte) : setSt (push s w) b = push (setSt s b) w :=
  apply_dite (setSt · b) (s.sp.val < 16) _ _

theorem setSt_writeResultFlag (s : State) (x : Reg) (r f b : Byte) :
    setSt (writeResultFlag s x r f) b = writeResultFlag (setSt s b) x r f := by
  unfold writeResultFlag
  simp only [setSt_params]
  split <;> rfl

theorem loadBytes_setSt (s : State) (b : Byte) (a n : Nat) :
    loadBytes (setSt s b) a n = loadBytes s a n := by
  induction n generalizing a with
  | zero => rfl
  | succ n ih => rw [loadBytes, loadBytes, ih, readByte_setSt]

/-- Every instruction but `LD ST` does the same under any ST and carries it along. -/
theorem exec_setSt {i : Instr} (h : exec i s = .next t) (hi : ∀ x, i ≠ .ldStVx x) (b : Byte) :
    exec i (setSt s b) = .next (setSt t b) := by
  cases i with
  | ldStVx x => exact absurd rfl (hi x)
  | cls | jp | jpV0 | ldImm | addImm | ldReg | orReg | andReg | xorReg | rnd | ldI | addIVx | ldFVx
  | ldVxDt | ldDtVx | nopUnknown =>
    obtain rfl := Host.Outcome.next.inj h
    rfl
  | seImm | sneImm | seReg | sneReg =>
    obtain rfl := Host.Outcome.next.inj h
    rw [setSt_skipIf]
    rfl
  | addReg | sub | shr | subn | shl =>
    obtain rfl := Host.Outcome.next.inj h
    rw [setSt_writeResultFlag]
    rfl
  | call nnn =>
    obtain ⟨hsp, rfl⟩ := exec_call_eq_next h
    have hne : (setSt s b).sp.val ≠ 16 := Nat.ne_of_lt hsp
    simp only [exec, execCall, if_neg hne]
    rw [setSt_pc, ← setSt_push]
    rfl
  | ret =>
    obtain ⟨k, hk, rfl⟩ := exec_ret_eq_next h
    simp only [exec, execRet, topOfStack_of_pos (setSt s b) k hk]
    rfl
  | skp x =>
    obtain ⟨k, hk, rfl⟩ := exec_skp_eq_next h
    simp only [exec, execSkp, readReg_setSt, keyIndex_eq_some.2 hk, setSt_skipIf, readKey_setSt]
  | sknp x =>
    obtain ⟨k, hk, rfl⟩ := exec_sknp_eq_next h
    simp only [exec, execSknp, readReg_setSt, keyIndex_eq_some.2 hk, setSt_skipIf, readKey_setSt]
  | ldVxK x =>
    have hkey : lowestKey (setSt s b) = lowestKey s := rfl
    simp only [exec, execLdVxK, hkey] at h ⊢
    split at h
    all_goals
      obtain rfl := Host.Outcome.next.inj h
      rfl
  | ldBVx | ldMemVx =>
    obtain ⟨hrange, h⟩ := withDataRange_eq_next s _ _ t h
    obtain rfl := Host.Outcome.next.inj h
    exact withDataRange_of_le (setSt s b) _ _ hrange
  | drw | ldVxMem =>
    obtain ⟨hrange, h⟩ := withDataRange_eq_next s _ _ t h
    obtain rfl := Host.Outcome.next.inj h
    rw [← loadBytes_setSt s b]
    exact withDataRange_of_le (setSt s b) _ _ hrange

/-- Settles O21: `LD ST` overwrites ST, every other instruction carries it along. -/
theorem noInstructionReadsTheSoundTimer : Obligations.NoInstructionReadsTheSoundTimer := by
  intro i s t b h
  cases i with
  | ldStVx x => exact h
  | _ => exact exec_setSt h (fun _ => nofun) b

/-! ## PowerOn (10_state.md R34) -/

@[simp] theorem readReg_powerOn (p : Params) (x : Reg) : readReg (State.powerOn p) x = 0 :=
  Vector.getElem_replicate x.isLt

@[simp] theorem readStack_powerOn (p : Params) (k : Fin 16) : readStack (State.powerOn p) k = 0 :=
  Vector.getElem_replicate k.isLt

@[simp] theorem readKey_powerOn (p : Params) (k : Fin 16) : readKey (State.powerOn p) k = false :=
  Vector.getElem_replicate k.isLt

@[simp] theorem readCell_powerOn (p : Params) (r : Fin 32) (c : Fin 64) :
    readCell (State.powerOn p) r c = false := by
  simp only [readCell, State.powerOn, Vector.getElem_replicate]

theorem readByte_powerOn (p : Params) (a : Nat) :
    readByte (State.powerOn p) a = Memory.initial p.fontRom a := rfl

theorem Memory.initial_font (font : Vector Byte 80) (j : Fin 80) :
    Memory.initial font (0x050 + j.val) = font[j.val] := by
  have := j.isLt
  rw [Memory.initial, dif_pos (by omega)]
  simp only [Nat.add_sub_cancel_left]

theorem Memory.initial_eq_zero (font : Vector Byte 80) {a : Nat} (ha : a < 0x050 ∨ 0x0A0 ≤ a) :
    Memory.initial font a = 0 := dif_neg (by omega)

theorem MachineInv.powerOn (p : Params) : MachineInv (State.powerOn p) where
  mem := Memory.wf_nil p.fontRom
  pc := show (0x200 : Word).toNat ≤ 0x10FE by decide
  stk k := by rw [readStack_powerOn]; exact Nat.zero_le _

/-- Settles O23: `State.reset` is the state after PowerOn at the default parameters. -/
theorem powerOnHasTheInvariant : Obligations.PowerOnHasTheInvariant :=
  ⟨.powerOn defaultParams, .powerOn⟩

/-- Settles O27: with nothing listed, memory reads as its reset contents. -/
theorem powerOnState : Obligations.PowerOnState :=
  ⟨rfl, fun p => ⟨readReg_powerOn p, rfl, rfl, rfl, readStack_powerOn p, rfl, rfl,
    readCell_powerOn p, readKey_powerOn p,
    fun j => (readByte_powerOn p _).trans (Memory.initial_font p.fontRom j),
    fun a _ ha => (readByte_powerOn p a).trans (Memory.initial_eq_zero p.fontRom ha)⟩⟩

/-! ## ResetLoad (10_state.md R35) -/

/-- An image of at most 3584 bytes is stored from 0x200 after the reset part. -/
theorem resetLoad_of_length_le {image : List Byte} (hlen : image.length ≤ Config.maxImage)
    (s : State) : resetLoad image s = .ok (storeBytes (resetForLoad s) 0x200 image) :=
  if_neg (Nat.not_lt.2 hlen)

/-- The reset part puts FONT_ROM back in the font region and keeps every other byte. -/
theorem readByte_resetForLoad (s : State) (a : Nat) :
    readByte (resetForLoad s) a =
      if h : 0x050 ≤ a ∧ a - 0x050 < 80 then s.params.fontRom[a - 0x050] else readByte s a := by
  refine (Memory.read_writeList s.params.fontRom s.mem 0x050 a s.params.fontRom.toList).trans ?_
  simp only [Vector.length_toList, Vector.getElem_toList]
  rfl

theorem readByte_resetForLoad_font (s : State) (j : Fin 80) :
    readByte (resetForLoad s) (0x050 + j.val) = s.params.fontRom[j.val] := by
  have := j.isLt
  rw [readByte_resetForLoad, dif_pos (by omega)]
  simp only [Nat.add_sub_cancel_left]

theorem readByte_resetForLoad_of_not_font (s : State) {a : Nat} (ha : a < 0x050 ∨ 0x0A0 ≤ a) :
    readByte (resetForLoad s) a = readByte s a := by
  rw [readByte_resetForLoad, dif_neg (by omega)]

/-- Settles O28: the registers are PowerOn's, and font, image and the rest of memory are apart. -/
theorem resetLoadState : Obligations.ResetLoadState := by
  intro image s hlen
  refine ⟨_, resetLoad_of_length_le hlen s, readReg_powerOn s.params, rfl, rfl, rfl,
    readStack_powerOn s.params, rfl, rfl, readCell_powerOn s.params, readKey_powerOn s.params,
    fun j => ?font, fun j hj => ?image, fun a hfont himage => ?rest⟩
  case font =>
    have := j.isLt
    rw [readByte_storeBytes, dif_neg (by omega), readByte_resetForLoad_font]
  case image =>
    rw [readByte_storeBytes, dif_pos (by omega)]
    simp only [Nat.add_sub_cancel_left]
  case rest =>
    rw [readByte_storeBytes, dif_neg (by omega), readByte_resetForLoad_of_not_font s hfont]

end Sys2Proof.Machine
end

section
/-! SUPPORT. Memory through a Step: canonical memories are told apart by reads, the fetched word in numbers, and what `LD [I]` leaves to read and to fetch (20_memory.md R50 to R65). -/

namespace Sys2Proof.Machine

variable {s t : State}

/-! ## Canonical memories (log entry 21) -/

/-- In a list of rising addresses a lookup finds every entry. -/
theorem Memory.lookup_eq_some_iff {m : List Host.Cell} (hm : m.Pairwise (fun p q => p.1 < q.1))
    {a : Nat} {b : Byte} : Memory.lookup a m = some b ↔ (a, b) ∈ m := by
  induction m with
  | nil => simp [Memory.lookup]
  | cons q m ih =>
    obtain ⟨c, w⟩ := q
    obtain ⟨hc, hm⟩ := List.pairwise_cons.1 hm
    by_cases hac : a = c
    · subst hac
      have hlater : (a, b) ∉ m := fun h => Nat.lt_irrefl a (hc _ h)
      simp [Memory.lookup, hlater, eq_comm]
    · simp [Memory.lookup, hac, ih hm]

/-- The entries of a canonical memory are the bytes that read as other than their reset contents. -/
theorem Memory.mem_iff_read {font : Vector Byte 80} {m : List Host.Cell} (hm : Memory.wf font m)
    (p : Host.Cell) :
    p ∈ m ↔ Memory.read font m p.1 = p.2 ∧ p.2 ≠ Memory.initial font p.1 := by
  obtain ⟨hsorted, hcells⟩ := hm
  rw [Memory.read]
  cases h : Memory.lookup p.1 m with
  | none =>
    have hp : p ∉ m := fun hp => by simp [(Memory.lookup_eq_some_iff hsorted).2 hp] at h
    exact iff_of_false hp fun ⟨hread, hne⟩ => hne hread.symm
  | some b =>
    have hb : (p.1, b) ∈ m := (Memory.lookup_eq_some_iff hsorted).1 h
    rw [← Memory.lookup_eq_some_iff hsorted, h, Option.some_inj, Option.getD_some]
    exact (and_iff_left_of_imp fun hbp => hbp ▸ (hcells _ hb).2).symm

/-- Settles O26: reads give the entries, and a rising list is given by its entries. -/
theorem equalContentsAreEqualMemories : Obligations.EqualContentsAreEqualMemories := by
  intro font m m' hm hm' hread
  refine List.Pairwise.eq_of_mem_iff (r := Prod.fst ⁻¹'o (· < ·)) hm.1 hm'.1 fun p => ?_
  rw [Memory.mem_iff_read hm, Memory.mem_iff_read hm', hread]

/-! ## The fetched word (20_memory.md R53) -/

theorem wordOfBytes_toNat (hi lo : Byte) : (wordOfBytes hi lo).toNat = 256 * hi.toNat + lo.toNat := by
  rw [wordOfBytes, BitVec.toNat_append, ← Nat.shiftLeft_add_eq_or_of_lt lo.isLt, Nat.shiftLeft_eq,
    Nat.mul_comm]

/-- Settles O8: the first byte is the word's high one. -/
theorem fetchIsBigEndian : Obligations.FetchIsBigEndian :=
  fun s hpc => ⟨_, fetch_of_le s hpc, wordOfBytes_toNat _ _⟩

/-! ## What a Step stores (20_memory.md R65) -/

theorem footprint_bytes (i : Instr) (s : State) : (footprint i s).bytes = storedBytes i s := by
  cases i <;> rfl

/-- The pre-advance leaves I, and so the place of the stores, as it was. -/
theorem storedBytes_beginStep (i : Instr) (r : Byte) (s : State) :
    storedBytes i (beginStep r s) = storedBytes i s := rfl

/-- Settles O17: memory is in the footprint of an instruction only where it stores. -/
theorem onlyTheStoresChangeMemory : Obligations.OnlyTheStoresChangeMemory := by
  intro s t w hw h a ha
  obtain ⟨-, u, hexec, rfl⟩ := step_eq_next hw h
  refine (exec_changesOnly hexec).bytes a ?_
  rwa [footprint_bytes, storedBytes_beginStep]

/-! ## What `LD [I]` leaves (20_memory.md R62, 43_index_memory.md R174) -/

/-- `LD [I], Vx` completes when its last byte is inside the memory, and stores V[0] to V[x]. -/
theorem exec_ldMemVx_eq_next {x : Reg} (h : exec (.ldMemVx x) s = .next t) :
    s.idx.toNat + x.val ≤ 0xFFF ∧ t = storeBytes s s.idx.toNat (regList s (regCount x)) := by
  obtain ⟨hrange, h⟩ := withDataRange_eq_next s _ _ t h
  exact ⟨by unfold regCount at hrange; omega, (Host.Outcome.next.inj h).symm⟩

/-- Each stored register reads back from its place. -/
theorem readByte_of_exec_ldMemVx {x j : Reg} (h : exec (.ldMemVx x) s = .next t) (hj : j ≤ x) :
    readByte t (s.idx.toNat + j.val) = readReg s j := by
  obtain ⟨-, rfl⟩ := exec_ldMemVx_eq_next h
  have hlen : j.val < (regList s (regCount x)).length := by
    rw [regList_length]; exact Nat.lt_succ_of_le hj
  rw [readByte_storeBytes, dif_pos (by omega)]
  simp only [Nat.add_sub_cancel_left]
  exact regList_getElem s _ _ hlen j.isLt

/-- Settles O31: both bytes are stored ones, and inside the memory. -/
theorem storesAreSeenByTheNextFetch : Obligations.StoresAreSeenByTheNextFetch := by
  intro x s t k hk h
  obtain ⟨hrange, -⟩ := exec_ldMemVx_eq_next h
  have := x.isLt
  have hpc : (setPc t (s.idx + BitVec.ofNat 16 k)).pc.toNat = s.idx.toNat + k := by
    rw [setPc_pc, BitVec.toNat_add, BitVec.toNat_ofNat]
    omega
  rw [fetch_of_le _ (by omega), hpc, readByte_setPc, readByte_setPc, wordOfBytes]
  have hhigh := readByte_of_exec_ldMemVx h (j := ⟨k, by omega⟩) (Nat.le_of_succ_le hk)
  have hlow := readByte_of_exec_ldMemVx h (j := ⟨k + 1, by omega⟩) hk
  rw [hhigh, Nat.add_assoc, hlow]

end Sys2Proof.Machine
end

section
/-! SUPPORT. The decoder by rows of the opcode map: a word of a row decodes to the row's instruction with the word's fields as operands, and the no-op takes the unmapped words (30_encoding.md R70 to R81). -/

namespace Sys2Proof

variable {w : Word}

/-! ## Fields and masks as numbers and as words (30_encoding.md R71, R81) -/

theorem topField_toNat (w : Word) : (topField w).toNat = w.toNat / 4096 := by
  have := w.isLt
  rw [topField, BitVec.extractLsb'_toNat, Nat.shiftRight_eq_div_pow]
  omega

theorem nField_toNat (w : Word) : (nField w).toNat = w.toNat % 16 := by
  rw [nField, BitVec.extractLsb'_toNat, Nat.shiftRight_zero]

theorem kkField_toNat (w : Word) : (kkField w).toNat = w.toNat % 256 := by
  rw [kkField, BitVec.extractLsb'_toNat, Nat.shiftRight_zero]

/-- The mask of a row that the top nibble alone selects keeps that nibble. -/
theorem and_F000 (w : Word) : w &&& 0xF000 = encodeA (topField w) 0 :=
  Laws.and_eq_of_bits _ _ _ fun i hi => by
    simp only [getLsbD_encodeA, topField]
    interval_cases i <;> simp

/-- The mask of a row of group 0, 8 or E keeps the top and the low nibble. -/
theorem and_F00F (w : Word) : w &&& 0xF00F = encodeXYN (topField w) 0 0 (nField w) :=
  Laws.and_eq_of_bits _ _ _ fun i hi => by
    simp only [getLsbD_encodeXYN, topField, nField]
    interval_cases i <;> simp [regBits]

/-- The mask of a row of group F keeps the top nibble and the low byte. -/
theorem and_F0FF (w : Word) : w &&& 0xF0FF = encodeXK (topField w) 0 (kkField w) :=
  Laws.and_eq_of_bits _ _ _ fun i hi => by
    simp only [getLsbD_encodeXK, topField, kkField]
    interval_cases i <;> simp [regBits]

/-! ## The rows of the opcode map (30_encoding.md R81) -/

/-- The word is one that the opcode map selects for the row of `i`. -/
def InRow (w : Word) (i : Instr) : Prop := w &&& (opcodeRow i).1 = (opcodeRow i).2

/-- The instruction of the row of `i` with the word's fields as its operands. -/
def Instr.withFieldsOf (w : Word) : Instr → Instr
  | .cls => .cls
  | .ret => .ret
  | .jp _ => .jp (nnnField w)
  | .call _ => .call (nnnField w)
  | .seImm _ _ => .seImm (xField w) (kkField w)
  | .sneImm _ _ => .sneImm (xField w) (kkField w)
  | .seReg _ _ => .seReg (xField w) (yField w)
  | .ldImm _ _ => .ldImm (xField w) (kkField w)
  | .addImm _ _ => .addImm (xField w) (kkField w)
  | .ldReg _ _ => .ldReg (xField w) (yField w)
  | .orReg _ _ => .orReg (xField w) (yField w)
  | .andReg _ _ => .andReg (xField w) (yField w)
  | .xorReg _ _ => .xorReg (xField w) (yField w)
  | .addReg _ _ => .addReg (xField w) (yField w)
  | .sub _ _ => .sub (xField w) (yField w)
  | .shr _ _ => .shr (xField w) (yField w)
  | .subn _ _ => .subn (xField w) (yField w)
  | .shl _ _ => .shl (xField w) (yField w)
  | .sneReg _ _ => .sneReg (xField w) (yField w)
  | .ldI _ => .ldI (nnnField w)
  | .jpV0 _ => .jpV0 (nnnField w)
  | .rnd _ _ => .rnd (xField w) (kkField w)
  | .drw _ _ _ => .drw (xField w) (yField w) (nField w)
  | .skp _ => .skp (xField w)
  | .sknp _ => .sknp (xField w)
  | .ldVxDt _ => .ldVxDt (xField w)
  | .ldVxK _ => .ldVxK (xField w)
  | .ldDtVx _ => .ldDtVx (xField w)
  | .ldStVx _ => .ldStVx (xField w)
  | .addIVx _ => .addIVx (xField w)
  | .ldFVx _ => .ldFVx (xField w)
  | .ldBVx _ => .ldBVx (xField w)
  | .ldMemVx _ => .ldMemVx (xField w)
  | .ldVxMem _ => .ldVxMem (xField w)
  | .nopUnknown _ => .nopUnknown w

theorem opcodeRow_withFieldsOf (w : Word) (i : Instr) : opcodeRow (i.withFieldsOf w) = opcodeRow i := by
  cases i <;> rfl

/-- The operands of an instruction are the fields of its word. -/
theorem withFieldsOf_encode (i : Instr) : i.withFieldsOf (encode i) = i := by
  cases i <;> simp [Instr.withFieldsOf, encode]

section
variable {i : Instr} {m r : Word} (h : InRow w i) (hrow : opcodeRow i = (m, r))
include h hrow

theorem and_eq_of_inRow : w &&& m = r := by
  rwa [InRow, hrow] at h

theorem topField_of_inRow (hm : topField m = 15#4) : topField w = topField r := by
  rw [← and_eq_of_inRow h hrow, topField_and m w hm]

theorem nField_of_inRow (hm : nField m = 15#4) : nField w = nField r := by
  rw [← and_eq_of_inRow h hrow, nField_and m w hm]

theorem kkField_of_inRow (hm : kkField m = 255#8) : kkField w = kkField r := by
  rw [← and_eq_of_inRow h hrow, kkField_and m w hm]

end

/-- The dispatch of R74 to R78 on a word whose row is known. -/
theorem decodeWord_of_inRow {i : Instr} (hi : ∀ u, i ≠ .nopUnknown u) (h : InRow w i) :
    decodeWord w = i.withFieldsOf w := by
  cases i
  case nopUnknown u => exact absurd rfl (hi u)
  case cls | ret =>
    rw [decodeWord, topField_of_inRow h rfl rfl]
    change decodeGroup0 w = _
    rw [decodeGroup0, nField_of_inRow h rfl rfl]
    rfl
  case ldReg | orReg | andReg | xorReg | addReg | sub | shr | subn | shl =>
    rw [decodeWord, topField_of_inRow h rfl rfl]
    change decodeGroup8 w = _
    rw [decodeGroup8, nField_of_inRow h rfl rfl]
    rfl
  case skp | sknp =>
    rw [decodeWord, topField_of_inRow h rfl rfl]
    change decodeGroupE w = _
    rw [decodeGroupE, nField_of_inRow h rfl rfl]
    rfl
  case ldVxDt | ldVxK | ldDtVx | ldStVx | addIVx | ldFVx | ldBVx | ldMemVx | ldVxMem =>
    rw [decodeWord, topField_of_inRow h rfl rfl]
    change decodeGroupF w = _
    rw [decodeGroupF, kkField_of_inRow h rfl rfl]
    rfl
  all_goals
    rw [decodeWord, topField_of_inRow h rfl rfl]
    rfl

/-! ## Every word lies in the row of what it decodes to -/

theorem inRow_of_topField {i : Instr} {t : Nat}
    (hrow : opcodeRow i = (0xF000, encodeA (BitVec.ofNat 4 t) 0)) (ht : (topField w).toNat = t) :
    InRow w i := by
  rw [InRow, hrow, and_F000, ← ht, BitVec.ofNat_toNat, BitVec.setWidth_eq]

theorem inRow_of_nField {i : Instr} {t n : Nat}
    (hrow : opcodeRow i = (0xF00F, encodeXYN (BitVec.ofNat 4 t) 0 0 (BitVec.ofNat 4 n)))
    (ht : (topField w).toNat = t) (hn : (nField w).toNat = n) : InRow w i := by
  rw [InRow, hrow, and_F00F, ← ht, ← hn, BitVec.ofNat_toNat, BitVec.setWidth_eq, BitVec.ofNat_toNat,
    BitVec.setWidth_eq]

theorem inRow_of_kkField {i : Instr} {t kk : Nat}
    (hrow : opcodeRow i = (0xF0FF, encodeXK (BitVec.ofNat 4 t) 0 (BitVec.ofNat 8 kk)))
    (ht : (topField w).toNat = t) (hk : (kkField w).toNat = kk) : InRow w i := by
  rw [InRow, hrow, and_F0FF, ← ht, ← hk, BitVec.ofNat_toNat, BitVec.setWidth_eq, BitVec.ofNat_toNat,
    BitVec.setWidth_eq]

theorem inRow_nopUnknown (w u : Word) : InRow w (.nopUnknown u) := BitVec.and_zero

theorem inRow_decodeGroup0 (ht : (topField w).toNat = 0x0) : InRow w (decodeGroup0 w) := by
  unfold decodeGroup0
  split
  case h_3 => exact inRow_nopUnknown w w
  all_goals exact inRow_of_nField rfl ht ‹_›

theorem inRow_decodeGroup8 (ht : (topField w).toNat = 0x8) : InRow w (decodeGroup8 w) := by
  unfold decodeGroup8
  split
  case h_10 => exact inRow_nopUnknown w w
  all_goals exact inRow_of_nField rfl ht ‹_›

theorem inRow_decodeGroupE (ht : (topField w).toNat = 0xE) : InRow w (decodeGroupE w) := by
  unfold decodeGroupE
  split
  case h_3 => exact inRow_nopUnknown w w
  all_goals exact inRow_of_nField rfl ht ‹_›

theorem inRow_decodeGroupF (ht : (topField w).toNat = 0xF) : InRow w (decodeGroupF w) := by
  unfold decodeGroupF
  split
  case h_10 => exact inRow_nopUnknown w w
  all_goals exact inRow_of_kkField rfl ht ‹_›

theorem inRow_decodeWord (w : Word) : InRow w (decodeWord w) := by
  unfold decodeWord
  split
  case h_1 ht => exact inRow_decodeGroup0 ht
  case h_9 ht => exact inRow_decodeGroup8 ht
  case h_15 ht => exact inRow_decodeGroupE ht
  case h_16 ht => exact inRow_decodeGroupF ht
  case h_17 => exact inRow_nopUnknown w w
  all_goals exact inRow_of_topField rfl ‹_›

/-- Settles O3: the dispatch on a word of the row keeps to the row, and a word lies in the row of what
it decodes to. -/
theorem opcodeRowsSelectTheirInstructions : Obligations.OpcodeRowsSelectTheirInstructions := by
  refine fun w i hi => ⟨fun h => ?_, fun hrow => ?_⟩
  · rw [decodeWord_of_inRow hi h, opcodeRow_withFieldsOf]
  · rw [← hrow]
    exact inRow_decodeWord w

/-! ## The unmapped words (30_encoding.md R79) -/

theorem unmapped_iff (w : Word) : unmapped w = true ↔
    ((topField w).toNat = 0x0 ∧ (nField w).toNat ≠ 0x0 ∧ (nField w).toNat ≠ 0xE) ∨
    ((topField w).toNat = 0x8 ∧ (nField w).toNat ∈ [0x8, 0x9, 0xA, 0xB, 0xC, 0xD, 0xF]) ∨
    ((topField w).toNat = 0xE ∧ (nField w).toNat ≠ 0x1 ∧ (nField w).toNat ≠ 0xE) ∨
    ((topField w).toNat = 0xF ∧
      (kkField w).toNat ∉ [0x07, 0x0A, 0x15, 0x18, 0x1E, 0x29, 0x33, 0x55, 0x65]) := by
  have ht : (w >>> 12).toNat = (topField w).toNat := by
    rw [topField_toNat, BitVec.toNat_ushiftRight, Nat.shiftRight_eq_div_pow]
  have hn : (w &&& 0x000F#16).toNat = (nField w).toNat := by
    rw [nField_toNat, BitVec.toNat_and]
    exact Nat.and_two_pow_sub_one_eq_mod w.toNat 4
  have hk : (w &&& 0x00FF#16).toNat = (kkField w).toNat := by
    rw [kkField_toNat, BitVec.toNat_and]
    exact Nat.and_two_pow_sub_one_eq_mod w.toNat 8
  simp [unmapped, ht, hn, hk, or_assoc]

theorem decodeGroup0_eq_nopUnknown_iff {u : Word} : decodeGroup0 w = .nopUnknown u ↔
    w = u ∧ (nField w).toNat ≠ 0x0 ∧ (nField w).toNat ≠ 0xE := by
  unfold decodeGroup0
  split <;> simp_all

theorem decodeGroup8_eq_nopUnknown_iff {u : Word} : decodeGroup8 w = .nopUnknown u ↔
    w = u ∧ (nField w).toNat ∈ [0x8, 0x9, 0xA, 0xB, 0xC, 0xD, 0xF] := by
  unfold decodeGroup8
  split
  case h_10 =>
    have := (nField w).isLt
    simp only [Instr.nopUnknown.injEq, iff_self_and, List.mem_cons, List.not_mem_nil, or_false,
      imp_false] at *
    omega
  all_goals simp [*]

theorem decodeGroupE_eq_nopUnknown_iff {u : Word} : decodeGroupE w = .nopUnknown u ↔
    w = u ∧ (nField w).toNat ≠ 0x1 ∧ (nField w).toNat ≠ 0xE := by
  unfold decodeGroupE
  split <;> simp_all

theorem decodeGroupF_eq_nopUnknown_iff {u : Word} : decodeGroupF w = .nopUnknown u ↔
    w = u ∧ (kkField w).toNat ∉ [0x07, 0x0A, 0x15, 0x18, 0x1E, 0x29, 0x33, 0x55, 0x65] := by
  unfold decodeGroupF
  split <;> simp_all

/-- The decoder makes a no-op of the unmapped words alone, and the no-op carries the word. -/
theorem decodeWord_eq_nopUnknown_iff {u : Word} :
    decodeWord w = .nopUnknown u ↔ w = u ∧ unmapped w = true := by
  rw [unmapped_iff]
  unfold decodeWord
  split
  case h_1 ht => simp [ht, decodeGroup0_eq_nopUnknown_iff]
  case h_9 ht => simp [ht, decodeGroup8_eq_nopUnknown_iff]
  case h_15 ht => simp [ht, decodeGroupE_eq_nopUnknown_iff]
  case h_16 ht => simp [ht, decodeGroupF_eq_nopUnknown_iff]
  case h_17 =>
    have := (topField w).isLt
    simp only [imp_false] at *
    omega
  all_goals simp [*]

/-- Settles O4: the list of R79 in the numbers of the word. -/
theorem unmappedWordsAreExactlyTheListed : Obligations.UnmappedWordsAreExactlyTheListed := by
  intro w
  simp [decodeWord_eq_nopUnknown_iff, unmapped_iff, topField_toNat, nField_toNat, kkField_toNat]

/-! ## Decoding and encoding (30_encoding.md R70, R80, R81) -/

open Laws.EncodesIntoRow in
/-- The canonical column of R81, row by row. -/
theorem inRow_encode {i : Instr} (hi : i.wf = true) : InRow (encode i) i := by
  revert hi
  change Laws.EncodesIntoRow.Statement i
  cases i
  exacts [cls, ret, jp _, call _, seImm _ _, sneImm _ _, seReg _ _, ldImm _ _, addImm _ _, ldReg _ _,
    orReg _ _, andReg _ _, xorReg _ _, addReg _ _, sub _ _, shr _ _, subn _ _, shl _ _, sneReg _ _,
    ldI _, jpV0 _, rnd _ _, drw _ _ _, skp _, sknp _, ldVxDt _, ldVxK _, ldDtVx _, ldStVx _, addIVx _,
    ldFVx _, ldBVx _, ldMemVx _, ldVxMem _, nopUnknown _]

theorem Instr.wf_iff {i : Instr} : i.wf = true ↔ ∀ u, i = .nopUnknown u → unmapped u = true := by
  cases i <;> simp [Instr.wf]

theorem wf_decodeWord (w : Word) : (decodeWord w).wf = true :=
  Instr.wf_iff.2 fun _ h => by
    obtain ⟨rfl, hw⟩ := decodeWord_eq_nopUnknown_iff.1 h
    exact hw

/-- The decoder is a left inverse of the encoder: an instruction's word lies in the instruction's row
and holds its operands, and a no-op's word is unmapped. -/
theorem decodeWord_encode {i : Instr} (hi : i.wf = true) : decodeWord (encode i) = i := by
  by_cases hnop : ∃ u, i = .nopUnknown u
  · obtain ⟨u, rfl⟩ := hnop
    exact decodeWord_eq_nopUnknown_iff.2 ⟨rfl, hi⟩
  · have hnop : ∀ u, i ≠ .nopUnknown u := not_exists.1 hnop
    rw [decodeWord_of_inRow hnop (inRow_encode hi), withFieldsOf_encode]

theorem decode_bytesOfWord_append (w : Word) (rest : List Byte) :
    decode (bytesOfWord w ++ rest) = .ok (decodeWord w, rest) := by
  change Except.ok (decodeWord (wordOfBytes _ _), rest) = _
  rw [wordOfBytes_bytesOfWord]

/-- Settles O1: the two bytes make the canonical word again, and that decodes to its instruction. -/
theorem encodedBytesDecodeBack : Obligations.EncodedBytesDecodeBack := by
  intro i rest hi
  rw [encodeBytes, decode_bytesOfWord_append, decodeWord_encode hi]

/-- Settles O2: what a word decodes to is well formed, so its canonical word decodes back. -/
theorem everyWordDecodesToAWellFormedInstruction :
    Obligations.EveryWordDecodesToAWellFormedInstruction :=
  fun w => ⟨wf_decodeWord w, decodeWord_encode (wf_decodeWord w)⟩

theorem decodeWith_strict (w : Word) :
    decodeWith .strict w = if encode (decodeWord w) = w then decodeWord w else .nopUnknown w := by
  simp [decodeWith, isCanonical]

/-- Settles O6: the word of a well-formed instruction is canonical. -/
theorem strictDecodeKeepsCanonicalWords : Obligations.StrictDecodeKeepsCanonicalWords := by
  refine ⟨decodeWith_strict, fun mode i hi => ?_⟩
  cases mode with
  | loose => exact decodeWord_encode hi
  | strict => rw [decodeWith_strict, decodeWord_encode hi, if_pos rfl]

/-- Settles O5: the decoder evaluated on the sixteen words. -/
theorem sampleWordsDecode : Obligations.SampleWordsDecode := by
  unfold Obligations.SampleWordsDecode
  decide

end Sys2Proof
end

section
/-! SUPPORT. What a Step is in terms of the word it fetches: the fetch fault, the execute phase between pre-advance and tick, the random byte it presents (40_step_cycle.md R100 to R109). -/

namespace Sys2Proof.Machine

variable {s t : State}

/-! ## A Step by its fetch (40_step_cycle.md R100 to R104) -/

theorem stepWith_of_gt (hpc : 0xFFE < s.pc.toNat) (r : Byte) :
    stepWith r s = .fault (.fetchAddress s.pc) := by
  rw [stepWith, fetch_of_gt s (Nat.not_le_of_lt hpc)]
  rfl

theorem stepWith_of_fetch {w : Word} (hw : fetch s = some w) (r : Byte) :
    stepWith r s = completeStep (exec (decodeWith s.params.decodeMode w) (beginStep r s)) := by
  rw [stepWith, hw]

theorem pc_le_of_fetch {w : Word} (hw : fetch s = some w) : s.pc.toNat ≤ 0xFFE := by
  by_contra hpc
  rw [fetch_of_gt s hpc] at hw
  cases hw

/-- Settles O7: the fetched word is the two bytes at PC, and `beginStep` and `completeStep` are by
definition the pre-advance and the tick written out. -/
theorem stepRunsTheDecodedInstruction : Obligations.StepRunsTheDecodedInstruction := by
  intro s
  refine ⟨fun hpc => stepWith_of_gt hpc _, fun hpc => ?_, fun _ => rfl⟩
  exact stepWith_of_fetch (fetch_of_le s hpc) (Config.rand s.steps)

/-! ## The two outcomes of a Step (40_step_cycle.md R105, R109) -/

/-- Settles O11: no instruction is refused, so no Step is. -/
theorem noStepIsRefused : Obligations.NoStepIsRefused :=
  fun s => stepWith_ne_refused (Config.rand s.steps) s

/-- Settles O12: the host keeps the old state on a fault, and a Step has no third outcome. -/
theorem rejectedStepChangesNothing : Obligations.RejectedStepChangesNothing := by
  intro r s
  cases h : stepWith r s with
  | next t => exact .inl ⟨t, rfl, by rw [hostStep, h]⟩
  | fault f => exact .inr ⟨f, rfl, by rw [hostStep, h]⟩
  | refused e => exact absurd h (stepWith_ne_refused r s e)

/-! ## The timers (40_step_cycle.md R104) -/

theorem footprint_dt_eq_false {i : Instr} (hi : ∀ x, i ≠ .ldDtVx x) : (footprint i s).dt = false := by
  cases i with
  | ldDtVx x => exact absurd rfl (hi x)
  | _ => rfl

theorem footprint_st_eq_false {i : Instr} (hi : ∀ x, i ≠ .ldStVx x) : (footprint i s).st = false := by
  cases i with
  | ldStVx x => exact absurd rfl (hi x)
  | _ => rfl

/-- Settles O15: a timer is in the footprint of its own load alone, and the tick comes after it. -/
theorem timersTickInEveryCompletedStep : Obligations.TimersTickInEveryCompletedStep := by
  intro s t w hw h
  obtain ⟨-, u, hexec, rfl⟩ := step_eq_next hw h
  have hu := exec_changesOnly hexec
  rw [tick_dt, tick_st, tickByte_toNat, tickByte_toNat]
  constructor
  · split
    · next x hi =>
      rw [hi] at hexec
      obtain rfl := Host.Outcome.next.inj hexec
      rfl
    · next hi => rw [hu.dt (footprint_dt_eq_false hi), beginStep_dt]
  · split
    · next x hi =>
      rw [hi] at hexec
      obtain rfl := Host.Outcome.next.inj hexec
      rfl
    · next hi => rw [hu.st (footprint_st_eq_false hi), beginStep_st]

/-! ## A word placed at PC (40_step_cycle.md R101, 20_memory.md R53) -/

/-- The two bytes of a word stored at PC are fetched as that word. -/
theorem fetch_storeBytes_bytesOfWord (hpc : s.pc.toNat ≤ 0xFFE) (w : Word) :
    fetch (storeBytes s s.pc.toNat (bytesOfWord w)) = some w := by
  rw [fetch_of_le _ (by rwa [storeBytes_pc]), storeBytes_pc, readByte_storeBytes, readByte_storeBytes,
    dif_pos (by simp [bytesOfWord]), dif_pos (by simp [bytesOfWord])]
  simp [bytesOfWord, wordOfBytes_bytesOfWord]

/-- A word is placed by storing its bytes at a PC an instruction can be fetched from. -/
theorem withFetchWord_eq_storeBytes (s : State) (w : Word) :
    ∃ s', s'.pc.toNat ≤ 0xFFE ∧ s'.params = s.params ∧
      s.withFetchWord 16 w.toNat = storeBytes s' s'.pc.toNat (bytesOfWord w) := by
  have hw : BitVec.ofNat 16 (w.toNat % 2 ^ 16) = w := by
    rw [Nat.mod_eq_of_lt w.isLt, BitVec.ofNat_toNat, BitVec.setWidth_eq]
  unfold State.withFetchWord
  rw [hw]
  split
  · exact ⟨s, ‹_›, rfl, rfl⟩
  · exact ⟨setPc s 0x200, by simp, rfl, rfl⟩

/-- Settles O32: the placed word is the one fetched, under the parameters of the state. -/
theorem placedWordIsTheOneRun : Obligations.PlacedWordIsTheOneRun := by
  intro s w r
  obtain ⟨s', hpc, hparams, hplaced⟩ := withFetchWord_eq_storeBytes s w
  rw [hplaced, stepWith_of_fetch (fetch_storeBytes_bytesOfWord hpc w), storeBytes_params, hparams]

/-! ## The unknown opcode (40_step_cycle.md R107) -/

/-- STRICT_DECODE makes no difference to an unmapped word. -/
theorem decodeWith_of_unmapped {w : Word} (hw : unmapped w = true) (mode : DecodeMode) :
    decodeWith mode w = .nopUnknown w := by
  have hdec : decodeWord w = .nopUnknown w := decodeWord_eq_nopUnknown_iff.2 ⟨rfl, hw⟩
  cases mode with
  | loose => exact hdec
  | strict => rw [decodeWith_strict, hdec, ite_self]

/-- Settles O59: such a Step is the pre-advance and the tick. -/
theorem unknownOpcodeDoesNothing : Obligations.UnknownOpcodeDoesNothing := by
  refine ⟨fun _ _ => rfl, fun r w s hw hun => ⟨tick (beginStep r s), ?_, ?_, ?_, ?_, rfl⟩⟩
  · rw [stepWith_of_fetch hw, decodeWith_of_unmapped hun]
    rfl
  · have hpc := pc_le_of_fetch hw
    rw [tick_pc, beginStep_pc, toNat_add_two (by omega)]
  · exact tickByte_toNat s.dt
  · exact tickByte_toNat s.st

/-! ## Only `RND` reads the random byte (40_step_cycle.md R108) -/

/-- The state with another random byte presented. -/
def setRand (s : State) (b : Byte) : State := { s with rand := b }

/-- A change of the state an outcome completes in; a fault or a refusal has none. -/
def mapNext (f : State → State) : Result → Result
  | .next s => .next (f s)
  | .fault e => .fault e
  | .refused e => .refused e

theorem beginStep_eq_setRand (r r' : Byte) (s : State) :
    beginStep r' s = setRand (beginStep r s) r' := rfl

/-- The tick leaves the record of the random byte alone. -/
theorem completeStep_mapNext_setRand (b : Byte) (o : Result) :
    completeStep (mapNext (setRand · b) o) = mapNext (setRand · b) (completeStep o) := by
  cases o <;> rfl

theorem setRand_skipIf (s : State) (c : Bool) (b : Byte) :
    setRand (skipIf s c) b = skipIf (setRand s b) c :=
  apply_ite (setRand · b) (c = true) _ _

theorem setRand_push (s : State) (w : Word) (b : Byte) :
    setRand (push s w) b = push (setRand s b) w :=
  apply_dite (setRand · b) (s.sp.val < 16) _ _

theorem setRand_writeResultFlag (s : State) (x : Reg) (r f b : Byte) :
    setRand (writeResultFlag s x r f) b = writeResultFlag (setRand s b) x r f := by
  have hparams : (setRand s b).params = s.params := rfl
  unfold writeResultFlag
  rw [hparams]
  split <;> rfl

/-- What is loaded depends on the bytes of memory alone. -/
theorem loadBytes_congr (hread : ∀ a, readByte t a = readByte s a) (a n : Nat) :
    loadBytes t a n = loadBytes s a n :=
  List.ext_getElem (by simp) fun k _ _ => by rw [loadBytes_getElem, loadBytes_getElem, hread]

theorem withDataRange_setRand (s : State) {b : Byte} (n : Nat) {k k' : Result}
    (hk : k' = mapNext (setRand · b) k) :
    withDataRange (setRand s b) n k' = mapNext (setRand · b) (withDataRange s n k) :=
  hk ▸ (apply_ite (mapNext (setRand · b)) (n = 0 ∨ s.idx.toNat + (n - 1) ≤ 0xFFF) k
    (raise (dataFault s.idx))).symm

/-- Every instruction but `RND` does the same under any random byte, a fault included. -/
theorem exec_setRand {i : Instr} (hi : ∀ x kk, i ≠ .rnd x kk) (s : State) (b : Byte) :
    exec i (setRand s b) = mapNext (setRand · b) (exec i s) := by
  cases i with
  | rnd x kk => exact absurd rfl (hi x kk)
  | cls | jp | jpV0 | ldImm | addImm | ldReg | orReg | andReg | xorReg | ldI | addIVx | ldFVx | ldVxDt
  | ldDtVx | ldStVx | nopUnknown => rfl
  | seImm | sneImm | seReg | sneReg => exact congrArg Host.Outcome.next (setRand_skipIf s _ b).symm
  | addReg | sub | shr | subn | shl =>
    exact congrArg Host.Outcome.next (setRand_writeResultFlag s _ _ _ b).symm
  | call nnn =>
    have hsp : (setRand s b).sp = s.sp := rfl
    simp only [exec, execCall, hsp]
    split
    · rfl
    · exact congrArg (fun u => Host.Outcome.next (setPc u _)) (setRand_push s s.pc b).symm
  | ret =>
    have htop : topOfStack (setRand s b) = topOfStack s := rfl
    simp only [exec, execRet, htop]
    cases topOfStack s <;> rfl
  | skp x | sknp x =>
    have hreg : readReg (setRand s b) x = readReg s x := rfl
    simp only [exec, execSkp, execSknp, hreg]
    cases keyIndex (readReg s x) with
    | none => rfl
    | some k => exact congrArg Host.Outcome.next (setRand_skipIf s _ b).symm
  | ldVxK x =>
    have hkey : lowestKey (setRand s b) = lowestKey s := rfl
    simp only [exec, execLdVxK, hkey]
    cases lowestKey s <;> rfl
  | ldBVx | ldMemVx =>
    refine withDataRange_setRand s _ ?_
    rfl
  | drw | ldVxMem =>
    have hload : ∀ a n, loadBytes (setRand s b) a n = loadBytes s a n := loadBytes_congr fun _ => rfl
    simp only [exec, execDrw, execLdVxMem, hload]
    refine withDataRange_setRand s _ ?_
    rfl

/-- Settles O20: the byte is presented before the execute phase and recorded through the tick. -/
theorem onlyRndReadsTheRandomByte : Obligations.OnlyRndReadsTheRandomByte := by
  intro s t w r r' hw hi h
  rw [stepWith_of_fetch hw] at h ⊢
  rw [beginStep_eq_setRand r r' s, exec_setRand hi, completeStep_mapNext_setRand, h]
  rfl

end Sys2Proof.Machine
end

section
/-! SUPPORT. The control transfers: the words of each row, the calls and returns on either side of their faults, the skips in closed form (41_control_flow.md R120 to R127). -/

namespace Sys2Proof.Machine

variable {s : State}

/-! ## The words of a row -/

/-- The mask and the match of a row select the row's instruction, its operands the word's fields. -/
theorem selects_opcodeRow (i : Instr) (hi : ∀ u, i ≠ .nopUnknown u) :
    Selects (opcodeRow i).1 (opcodeRow i).2 fun w => i.withFieldsOf w :=
  fun _ h => decodeWord_of_inRow hi h

/-! ## RET and CALL -/

theorem exec_ret_of_zero (h : s.sp.val = 0) : exec .ret s = .fault .stackUnderflow := by
  simp only [exec, execRet, topOfStack_of_zero s h, raise]

theorem exec_ret_of_pos {k : Fin 16} (h : s.sp.val = k.val + 1) :
    exec .ret s = .next (setPc (dropTop s) (readStack s k)) := by
  simp only [exec, execRet, topOfStack_of_pos s k h]

theorem exec_call_of_full (nnn : Addr12) (h : s.sp.val = 16) :
    exec (.call nnn) s = .fault .stackOverflow := if_pos h

theorem exec_call_of_lt (nnn : Addr12) (h : s.sp.val < 16) :
    exec (.call nnn) s = .next (setPc (push s s.pc) (zextAddr nnn)) := if_neg h.ne

/-- Settles O33: the pop lowers SP and touches no entry. -/
theorem returnPopsTheStack : Obligations.ReturnPopsTheStack := by
  refine ⟨selects_opcodeRow .ret nofun, fun s => exec_ret_of_zero, fun s k hsp => ?_⟩
  have hret := exec_ret_of_pos hsp
  refine ⟨_, hret, ?_, rfl, fun _ => rfl, exec_changesOnly hret⟩
  rw [setPc_sp, dropTop_sp, hsp, Nat.add_sub_cancel]

/-- Settles O35: below 16 entries the push writes the entry at SP alone. -/
theorem callPushesTheReturnAddress : Obligations.CallPushesTheReturnAddress := by
  refine ⟨selects_opcodeRow (.call 0) nofun, fun nnn s => exec_call_of_full nnn, fun nnn s hsp => ?_⟩
  have hcall := exec_call_of_lt nnn hsp
  exact ⟨_, hcall, push_sp s s.pc hsp, zextAddr_toNat nnn, fun j => readStack_push s s.pc j hsp,
    exec_changesOnly hcall⟩

/-- Settles O36: the entry the return pops is the one the call wrote. -/
theorem callThenReturnComesBack : Obligations.CallThenReturnComesBack := by
  intro nnn s t u hcall hsp hstk
  obtain ⟨hlt, rfl⟩ := exec_call_eq_next hcall
  let k : Fin 16 := ⟨s.sp.val, hlt⟩
  have husp : u.sp.val = k.val + 1 := by rw [hsp, setPc_sp, push_sp s s.pc hlt]
  have hentry : readStack u k = s.pc := by
    rw [hstk, readStack_setPc, readStack_push s s.pc k hlt, if_pos rfl]
  refine ⟨_, exec_ret_of_pos husp, hentry, Fin.ext ?_⟩
  rw [setPc_sp, dropTop_sp, husp, Nat.add_sub_cancel]

/-! ## Jumps -/

/-- Settles O34: a 12-bit address is the same number in 16 bits. -/
theorem jumpSetsPC : Obligations.JumpSetsPC :=
  ⟨selects_opcodeRow (.jp 0) nofun, fun nnn _ => ⟨_, rfl, zextAddr_toNat nnn, .setPc rfl _ _⟩⟩

/-- Settles O39: the sum does not wrap, and its greatest value is 0xFFF + 0xFF. -/
theorem jumpWithOffsetAddsV0 : Obligations.JumpWithOffsetAddsV0 := by
  refine ⟨selects_opcodeRow (.jpV0 0) nofun, fun nnn s => ?_⟩
  have hpc := zextAddr_add_zextByte_toNat nnn (readReg s 0)
  refine ⟨_, rfl, hpc, ?_, .setPc rfl _ _⟩
  rw [setPc_pc, hpc]
  have := nnn.isLt
  have := (readReg s 0).isLt
  omega

/-! ## Skips -/

theorem skipIf_beq_pc (s : State) (a b : Byte) :
    (skipIf s (a == b)).pc = if a = b then s.pc + 2 else s.pc := by
  by_cases h : a = b <;> simp [skipIf, h]

theorem skipIf_bne_pc (s : State) (a b : Byte) :
    (skipIf s (a != b)).pc = if a = b then s.pc else s.pc + 2 := by
  by_cases h : a = b <;> simp [skipIf, h]

/-- Settles O37: each skip compares V[x] with the immediate. -/
theorem skipsOnImmediates : Obligations.SkipsOnImmediates :=
  ⟨selects_opcodeRow (.seImm 0 0) nofun, selects_opcodeRow (.sneImm 0 0) nofun, fun _ _ s =>
    ⟨⟨_, rfl, skipIf_beq_pc s _ _, .skipIf rfl s _⟩,
      ⟨_, rfl, skipIf_bne_pc s _ _, .skipIf rfl s _⟩⟩⟩

/-- Settles O38: each skip compares V[x] with V[y]. -/
theorem skipsOnRegisters : Obligations.SkipsOnRegisters :=
  ⟨selects_opcodeRow (.seReg 0 0) nofun, selects_opcodeRow (.sneReg 0 0) nofun, fun _ _ s =>
    ⟨⟨_, rfl, skipIf_beq_pc s _ _, .skipIf rfl s _⟩,
      ⟨_, rfl, skipIf_bne_pc s _ _, .skipIf rfl s _⟩⟩⟩

end Sys2Proof.Machine
end

section
/-! SUPPORT. The loads, arithmetic, logic, shifts and random: the flags as numbers, and what an instruction leaves that writes a result and a flag (42_alu.md R140 to R151). -/

namespace Sys2Proof.Machine

variable {s : State}

/-! ## Instructions without a flag -/

/-- Settles O40: the immediate is stored, or added mod 256, in V[x] alone. -/
theorem immediateLoadAndAdd : Obligations.ImmediateLoadAndAdd :=
  ⟨selects_opcodeRow (.ldImm 0 0) nofun, selects_opcodeRow (.addImm 0 0) nofun, fun x kk s =>
    ⟨⟨_, rfl, readReg_writeReg_self s x kk, .writeReg (.head _) s _⟩,
      ⟨_, rfl, by rw [readReg_writeReg_self, BitVec.toNat_add], .writeReg (.head _) s _⟩⟩⟩

/-- Settles O41: each form writes V[x] alone, so VF only as V[x]. -/
theorem moveAndLogicWithoutFlag : Obligations.MoveAndLogicWithoutFlag := by
  refine ⟨selects_opcodeRow (.ldReg 0 0) nofun, selects_opcodeRow (.orReg 0 0) nofun,
    selects_opcodeRow (.andReg 0 0) nofun, selects_opcodeRow (.xorReg 0 0) nofun, fun x y s =>
    ⟨⟨_, rfl, ?move, .writeReg (.head _) s _⟩, ⟨_, rfl, fun b => ?or, .writeReg (.head _) s _⟩,
      ⟨_, rfl, fun b => ?and, .writeReg (.head _) s _⟩,
      ⟨_, rfl, fun b => ?xor, .writeReg (.head _) s _⟩⟩⟩
  case move => exact readReg_writeReg_self s x _
  case or => rw [readReg_writeReg_self, BitVec.getLsbD_or]
  case and => rw [readReg_writeReg_self, BitVec.getLsbD_and]
  case xor => rw [readReg_writeReg_self, BitVec.getLsbD_xor]

/-- Settles O45: the random byte is masked as it is, whatever it is. -/
theorem randomIsMaskedByTheImmediate : Obligations.RandomIsMaskedByTheImmediate :=
  ⟨selects_opcodeRow (.rnd 0 0) nofun, fun x kk s =>
    ⟨_, rfl, fun b => by rw [readReg_writeReg_self, BitVec.getLsbD_and], .writeReg (.head _) s _⟩⟩

/-! ## Flags and operands as numbers (10_state.md R21) -/

theorem flagByte_toNat (c : Bool) : (flagByte c).toNat = c.toNat := by
  cases c <;> rfl

theorem flagByte_decide_toNat (p : Prop) [Decidable p] :
    (flagByte (decide p)).toNat = if p then 1 else 0 := by
  by_cases hp : p <;> simp [flagByte_toNat, hp]

theorem lowBitFlag_toNat (b : Byte) : (lowBitFlag b).toNat = b.toNat % 2 := by
  rw [lowBitFlag, flagByte_toNat, BitVec.getLsbD, Nat.toNat_testBit, Nat.pow_zero, Nat.div_one]

/-- Bit 7 is the top bit of a byte, so nothing is left above it. -/
theorem highBitFlag_toNat (b : Byte) : (highBitFlag b).toNat = b.toNat / 128 := by
  rw [highBitFlag, flagByte_toNat, BitVec.getLsbD, Nat.toNat_testBit]
  have := b.isLt
  omega

/-- The wrapped difference is the integers' non-negative residue mod 256. -/
theorem toNat_sub_eq_emod (a b : Byte) :
    (a - b).toNat = (((a.toNat : Int) - b.toNat) % 256).toNat := by
  have := b.isLt
  rw [BitVec.toNat_sub]
  omega

theorem shiftSource_eq (s : State) (x y : Reg) :
    shiftSource s x y = readReg s (if s.params.shiftSource = .x then x else y) := by
  unfold shiftSource
  cases s.params.shiftSource <;> rfl

/-! ## Instructions with a flag (40_step_cycle.md R106) -/

section

variable {x : Reg} {r f : Byte} {result flag : Nat}

/-- Where x = 0xF the two writes meet, and VF_PRIORITY picks the one that stays. -/
theorem resultAndFlag_writeResultFlag (hr : r.toNat = result) (hf : f.toNat = flag) :
    ResultAndFlag x result flag s (writeResultFlag s x r f) := by
  subst hr hf
  refine ⟨fun hx => ⟨?_, ?_⟩, fun _ hprio => ?_, fun hx hprio => ?_⟩
  · rw [readReg_writeResultFlag, if_neg fun h => hx h.1, if_pos rfl]
  · rw [readReg_writeResultFlag, if_pos ⟨rfl, .inl hx⟩]
  · rw [readReg_writeResultFlag, if_pos ⟨rfl, .inr hprio⟩]
  · rw [readReg_writeResultFlag, if_neg (by simp [hx, hprio]), if_pos hx.symm]

/-- An instruction that writes a result and a flag leaves these two, and nothing else changed. -/
theorem completes_writeResultFlag {i : Instr} (h : exec i s = .next (writeResultFlag s x r f))
    (hr : r.toNat = result) (hf : f.toNat = flag) :
    Completes i s fun t => ResultAndFlag x result flag s t ∧ ChangesOnly { regs := [x, 15] } s t :=
  ⟨_, h, resultAndFlag_writeResultFlag hr hf, .writeResultFlag (.head _) (.tail _ (.head _)) s _ _⟩

end

/-- Settles O42: the flag is the comparison of the unwrapped sum with 255. -/
theorem addRecordsTheCarry : Obligations.AddRecordsTheCarry :=
  ⟨selects_opcodeRow (.addReg 0 0) nofun, fun _ _ _ =>
    completes_writeResultFlag rfl (BitVec.toNat_add _ _) (flagByte_decide_toNat _)⟩

/-- Settles O43: SUBN is SUB with minuend and subtrahend exchanged. -/
theorem subtractRecordsNotBorrow : Obligations.SubtractRecordsNotBorrow :=
  ⟨selects_opcodeRow (.sub 0 0) nofun, selects_opcodeRow (.subn 0 0) nofun, fun _ _ _ =>
    ⟨completes_writeResultFlag rfl (toNat_sub_eq_emod _ _) (flagByte_decide_toNat _),
      completes_writeResultFlag rfl (toNat_sub_eq_emod _ _) (flagByte_decide_toNat _)⟩⟩

/-- Settles O44: a shift by one halves or doubles the source, and the flag is the bit that leaves it. -/
theorem shiftsRecordTheLostBit : Obligations.ShiftsRecordTheLostBit := by
  refine ⟨selects_opcodeRow (.shr 0 0) nofun, selects_opcodeRow (.shl 0 0) nofun, fun x y s => ?_⟩
  rw [← shiftSource_eq]
  exact ⟨completes_writeResultFlag rfl (by simp [Nat.shiftRight_eq_div_pow]) (lowBitFlag_toNat _),
    completes_writeResultFlag rfl (by simp [Nat.shiftLeft_eq]) (highBitFlag_toNat _)⟩

end Sys2Proof.Machine
end

section
/-! SUPPORT. The index register and the memory instructions: who writes I, the range check of an access of one byte or more, what the stores and the load leave (43_index_memory.md R170 to R176). -/

namespace Sys2Proof.Machine

variable {s : State}

/-! ## The index register (43_index_memory.md R170 to R172, R176) -/

theorem footprint_idx_eq_false {i : Instr} (hld : ∀ a, i ≠ .ldI a) (hadd : ∀ x, i ≠ .addIVx x)
    (hglyph : ∀ x, i ≠ .ldFVx x) : (footprint i s).idx = false := by
  cases i with
  | ldI a => exact absurd rfl (hld a)
  | addIVx x => exact absurd rfl (hadd x)
  | ldFVx x => exact absurd rfl (hglyph x)
  | _ => rfl

/-- Settles O16: I is in the footprint of its three writers alone, and pre-advance and tick leave it. -/
theorem onlyTheIndexInstructionsChangeI : Obligations.OnlyTheIndexInstructionsChangeI := by
  intro s t w hw h hld hadd hglyph
  obtain ⟨-, u, hexec, rfl⟩ := step_eq_next hw h
  rw [tick_idx, (exec_changesOnly hexec).idx (footprint_idx_eq_false hld hadd hglyph), beginStep_idx]

/-- The greatest glyph address is 0x050 + 5 * 255: no sum wraps. -/
theorem glyphAddr_toNat (b : Byte) : (glyphAddr b).toNat = 0x050 + 5 * b.toNat := by
  have := b.isLt
  rw [glyphAddr, BitVec.toNat_ofNat]
  omega

/-- Settles O46: the three forms write I alone, and only `ADD I` can wrap. -/
theorem indexRegisterWrites : Obligations.IndexRegisterWrites := by
  refine ⟨selects_opcodeRow (.ldI 0) nofun, selects_opcodeRow (.addIVx 0) nofun,
    selects_opcodeRow (.ldFVx 0) nofun, fun nnn s => ⟨_, rfl, zextAddr_toNat nnn, .setIdx rfl s _⟩,
    fun x s => ⟨_, rfl, ?add, .setIdx rfl s _⟩,
    fun x s => ⟨_, rfl, glyphAddr_toNat _, .setIdx rfl s _⟩⟩
  case add => rw [setIdx_idx, BitVec.toNat_add, zextByte_toNat]

/-! ## The range check (20_memory.md R56) -/

/-- An access of one byte or more is in range when its last byte is inside the memory. -/
theorem withDataRange_succ_of_le {n : Nat} (h : s.idx.toNat + n ≤ 0xFFF) (k : Result) :
    withDataRange s (n + 1) k = k := withDataRange_of_le s (n + 1) k (.inr h)

theorem withDataRange_succ_of_gt {n : Nat} (h : 0xFFF < s.idx.toNat + n) (k : Result) :
    withDataRange s (n + 1) k =
      .fault (.dataAddress (if 0xFFF < s.idx.toNat then s.idx else 0x1000)) :=
  withDataRange_of_gt s (n + 1) k fun
    | .inl hzero => Nat.succ_ne_zero n hzero
    | .inr hle => Nat.not_le_of_lt h hle

theorem exec_ldBVx_of_le (x : Reg) (h : s.idx.toNat + 2 ≤ 0xFFF) :
    exec (.ldBVx x) s = .next (storeBytes s s.idx.toNat (bcdDigits (readReg s x))) :=
  withDataRange_succ_of_le h _

theorem exec_ldMemVx_of_le {x : Reg} (h : s.idx.toNat + x.val ≤ 0xFFF) :
    exec (.ldMemVx x) s = .next (storeBytes s s.idx.toNat (regList s (regCount x))) :=
  withDataRange_succ_of_le h _

theorem exec_ldVxMem_of_le {x : Reg} (h : s.idx.toNat + x.val ≤ 0xFFF) :
    exec (.ldVxMem x) s = .next (loadRegs s (loadBytes s s.idx.toNat (regCount x))) :=
  withDataRange_succ_of_le h _

/-! ## The decimal digits (43_index_memory.md R173) -/

/-- The k-th of some stored bytes reads back from the k-th address. -/
theorem readByte_storeBytes_add (s : State) (a : Nat) {bs : List Byte} {k : Nat} (hk : k < bs.length) :
    readByte (storeBytes s a bs) (a + k) = bs[k] := by
  rw [readByte_storeBytes, dif_pos (by omega)]
  simp only [Nat.add_sub_cancel_left]

/-- Each of the three digits of a byte, which is at most 255, fits in a byte. -/
theorem bcdDigits_toNat (b : Byte) :
    (bcdDigits b).map BitVec.toNat = [b.toNat / 100, b.toNat / 10 % 10, b.toNat % 10] := by
  have hhundreds : b.toNat / 100 < 2 ^ 8 := by have := b.isLt; omega
  have htens : b.toNat / 10 % 10 < 2 ^ 8 := by omega
  have hones : b.toNat % 10 < 2 ^ 8 := by omega
  simp only [bcdDigits, List.map_cons, List.map_nil, BitVec.toNat_ofNat, Nat.mod_eq_of_lt hhundreds,
    Nat.mod_eq_of_lt htens, Nat.mod_eq_of_lt hones]

/-- The stored digits of a byte read back as numbers, the hundreds first. -/
theorem readByte_storeBytes_bcdDigits (s : State) (a : Nat) (b : Byte) {k : Nat} (hk : k < 3) :
    (readByte (storeBytes s a (bcdDigits b)) (a + k)).toNat =
      [b.toNat / 100, b.toNat / 10 % 10, b.toNat % 10][k] := by
  rw [readByte_storeBytes_add s a hk]
  exact (List.getElem_map BitVec.toNat (h := hk)).symm.trans
    (List.getElem_of_eq (bcdDigits_toNat b) hk)

/-- Settles O47: three bytes from I, written in range or not at all. -/
theorem decimalDigitsAreStored : Obligations.DecimalDigitsAreStored := by
  refine ⟨selects_opcodeRow (.ldBVx 0) nofun, fun x s hgt => withDataRange_succ_of_gt hgt _,
    fun x s hle => ?_⟩
  have hexec := exec_ldBVx_of_le x hle
  have hdigit {k : Nat} (hk : k < 3) :=
    readByte_storeBytes_bcdDigits s s.idx.toNat (readReg s x) hk
  exact ⟨_, hexec, hdigit (k := 0) (by decide), hdigit (k := 1) (by decide),
    hdigit (k := 2) (by decide), exec_changesOnly hexec⟩

/-! ## Registers to memory and back (43_index_memory.md R174, R175) -/

/-- Settles O48: x + 1 bytes from I, written in range or not at all. -/
theorem registersAreStored : Obligations.RegistersAreStored := by
  refine ⟨selects_opcodeRow (.ldMemVx 0) nofun, fun x s hgt => withDataRange_succ_of_gt hgt _,
    fun x s hle => ?_⟩
  have hexec := exec_ldMemVx_of_le hle
  exact ⟨_, hexec, fun k hk => readByte_of_exec_ldMemVx hexec hk, exec_changesOnly hexec⟩

/-- Registers 0 to x get the bytes from address `a` on, and those above x stay. -/
theorem readReg_loadRegs_loadBytes (s : State) (a : Nat) (x k : Reg) :
    readReg (loadRegs s (loadBytes s a (regCount x))) k =
      if k ≤ x then readByte s (a + k.val) else readReg s k := by
  have hlen : k.val < (loadBytes s a (regCount x)).length ↔ k ≤ x := by
    rw [loadBytes_length]
    exact Nat.lt_succ_iff
  rw [readReg_loadRegs]
  by_cases hk : k ≤ x
  · rw [dif_pos (hlen.2 hk), if_pos hk, loadBytes_getElem]
  · rw [dif_neg (mt hlen.1 hk), if_neg hk]

/-- Settles O49: x + 1 bytes from I, loaded in range or not at all. -/
theorem registersAreLoaded : Obligations.RegistersAreLoaded := by
  refine ⟨selects_opcodeRow (.ldVxMem 0) nofun, fun x s hgt => withDataRange_succ_of_gt hgt _,
    fun x s hle => ?_⟩
  have hexec := exec_ldVxMem_of_le hle
  exact ⟨_, hexec, readReg_loadRegs_loadBytes s s.idx.toNat x, exec_changesOnly hexec⟩

/-- Settles O50: the load is in range because the store was, and each register gets the byte that the
store wrote from it. -/
theorem storeThenLoadRestoresRegisters : Obligations.StoreThenLoadRestoresRegisters := by
  intro x s t u hstore hidx hbytes
  obtain ⟨hrange, -⟩ := exec_ldMemVx_eq_next hstore
  refine ⟨_, exec_ldVxMem_of_le (by rwa [hidx]), fun k hk => ?_⟩
  rw [readReg_loadRegs_loadBytes, if_pos hk, hidx, hbytes k hk, readByte_of_exec_ldMemVx hstore hk]

end Sys2Proof.Machine
end

section
/-! SUPPORT. The display, keypad and timer instructions: which cells a sprite flips, in the closed form of `spriteCovers`, the key skips on either side of their fault, and the least pressed key (44_display_keypad_timers.md R190 to R197). -/

namespace Sys2Proof.Machine

variable {s t : State} {x y : Reg} {n : Nibble}

/-! ## Clearing the display (44_display_keypad_timers.md R190) -/

theorem readCell_setFb_blankFb (s : State) (r : Fin 32) (c : Fin 64) :
    readCell (setFb s blankFb) r c = false := by
  simp only [readCell, setFb_fb, blankFb, Vector.getElem_replicate]

/-- Settles O51: a blank frame buffer put in place twice is the one put in place once. -/
theorem clearTurnsEveryCellOff : Obligations.ClearTurnsEveryCellOff :=
  ⟨selects_opcodeRow .cls nofun, fun s => ⟨_, rfl, readCell_setFb_blankFb s, .setFb rfl s _, rfl⟩⟩

/-! ## Where a pixel lies (44_display_keypad_timers.md R191) -/

/-- Under Wrap a pixel less than 32 rows and 64 columns from the start lies on a cell exactly when it is
as far from the start as the cell, counted around the edges. -/
theorem cellAt_wrap_eq_some {row col dr dc : Nat} (hrow : row < 32) (hcol : col < 64) (hdr : dr < 32)
    (hdc : dc < 64) {r : Fin 32} {c : Fin 64} :
    cellAt .wrap (row + dr) (col + dc) = some (r, c) ↔
      dr = (r.val + 32 - row) % 32 ∧ dc = (c.val + 64 - col) % 64 := by
  have := r.isLt
  have := c.isLt
  simp only [cellAt, Option.some.injEq, Prod.mk.injEq, Fin.ext_iff]
  omega

/-- Under Clip a pixel lies on a cell exactly when the cell is not before the start and the pixel as far
from it as the cell. -/
theorem cellAt_clip_eq_some {row col dr dc : Nat} {r : Fin 32} {c : Fin 64} :
    cellAt .clip (row + dr) (col + dc) = some (r, c) ↔
      (row ≤ r.val ∧ dr = r.val - row) ∧ col ≤ c.val ∧ dc = c.val - col := by
  have := r.isLt
  have := c.isLt
  simp only [cellAt, Option.dite_none_right_eq_some, Option.some.injEq, Prod.mk.injEq, Fin.ext_iff,
    exists_prop]
  omega

/-! ## The cells `DRW` flips (44_display_keypad_timers.md R191) -/

/-- The cells `DRW Vx, Vy, n` flips in `s`. -/
def drawTargets (s : State) (x y : Reg) (n : Nibble) : List (Fin 32 × Fin 64) :=
  spriteTargets s.params.spriteEdge (spriteCol s x) (spriteRow s y) (loadBytes s s.idx.toNat n.toNat)

/-- The `n` bytes from I on have a 1 bit in byte `dr` at `dc` places from the left. -/
def SpriteBitAt (s : State) (n : Nibble) (dr dc : Nat) : Prop :=
  dr < n.toNat ∧ dc < 8 ∧ spriteBit (readByte s (s.idx.toNat + dr)) dc = true

theorem spriteCovers_of_wrap (h : s.params.spriteEdge = .wrap) {r : Fin 32} {c : Fin 64} :
    spriteCovers s x y n r c ↔
      SpriteBitAt s n ((r.val + 32 - spriteRow s y) % 32) ((c.val + 64 - spriteCol s x) % 64) := by
  simp only [spriteCovers, h]
  rfl

theorem spriteCovers_of_clip (h : s.params.spriteEdge = .clip) {r : Fin 32} {c : Fin 64} :
    spriteCovers s x y n r c ↔ spriteRow s y ≤ r.val ∧ spriteCol s x ≤ c.val ∧
      SpriteBitAt s n (r.val - spriteRow s y) (c.val - spriteCol s x) := by
  simp only [spriteCovers, h]
  rfl

theorem nodup_drawTargets (s : State) (x y : Reg) (n : Nibble) : (drawTargets s x y n).Nodup :=
  nodup_spriteTargets _ _ _ _ (by have := n.isLt; rw [loadBytes_length]; omega)

theorem mem_drawTargets {p : Fin 32 × Fin 64} :
    p ∈ drawTargets s x y n ↔ ∃ dr dc, SpriteBitAt s n dr dc ∧
      cellAt s.params.spriteEdge (spriteRow s y + dr) (spriteCol s x + dc) = some p := by
  rw [drawTargets, mem_spriteTargets]
  refine exists_congr fun dr => ⟨?_, ?_⟩
  · rintro ⟨hdr, dc, hdc, hbit, hcell⟩
    rw [loadBytes_getElem] at hbit
    rw [loadBytes_length] at hdr
    exact ⟨dc, ⟨hdr, hdc, hbit⟩, hcell⟩
  · rintro ⟨dc, ⟨hdr, hdc, hbit⟩, hcell⟩
    refine ⟨by rwa [loadBytes_length], dc, hdc, ?_, hcell⟩
    rwa [loadBytes_getElem]

/-- The flipped cells are those the closed form of R191 gives, under either edge policy. -/
theorem mem_drawTargets_iff_spriteCovers {r : Fin 32} {c : Fin 64} :
    (r, c) ∈ drawTargets s x y n ↔ spriteCovers s x y n r c := by
  have hrow : spriteRow s y < 32 := Nat.mod_lt _ (by decide)
  have hcol : spriteCol s x < 64 := Nat.mod_lt _ (by decide)
  rw [mem_drawTargets]
  cases hedge : s.params.spriteEdge with
  | wrap =>
    rw [spriteCovers_of_wrap hedge]
    constructor
    · rintro ⟨dr, dc, ⟨hdr, hdc, hbit⟩, hcell⟩
      have := n.isLt
      obtain ⟨rfl, rfl⟩ := (cellAt_wrap_eq_some hrow hcol (by omega) (by omega)).1 hcell
      exact ⟨hdr, hdc, hbit⟩
    · intro hbit
      refine ⟨_, _, hbit, (cellAt_wrap_eq_some hrow hcol ?_ ?_).2 ⟨rfl, rfl⟩⟩
      · exact Nat.mod_lt _ (by decide)
      · exact Nat.mod_lt _ (by decide)
  | clip =>
    rw [spriteCovers_of_clip hedge]
    constructor
    · rintro ⟨dr, dc, hbit, hcell⟩
      obtain ⟨⟨hr, rfl⟩, hc, rfl⟩ := cellAt_clip_eq_some.1 hcell
      exact ⟨hr, hc, hbit⟩
    · rintro ⟨hr, hc, hbit⟩
      exact ⟨_, _, hbit, cellAt_clip_eq_some.2 ⟨⟨hr, rfl⟩, hc, rfl⟩⟩

/-! ## The state `DRW` leaves -/

/-- The frame buffer after `DRW Vx, Vy, n` in `s`, with the collision. -/
def drawCanvas (s : State) (x y : Reg) (n : Nibble) : Canvas :=
  drawRows s.params.spriteEdge (spriteCol s x) (spriteRow s y) (s.fb, false)
    (loadBytes s s.idx.toNat n.toNat)

/-- The state after `DRW Vx, Vy, n` completed in `s`. -/
def afterDraw (s : State) (x y : Reg) (n : Nibble) : State :=
  writeReg (setFb s (drawCanvas s x y n).1) regVF (flagByte (drawCanvas s x y n).2)

/-- Each flipped cell is visited once, so it ends flipped (R191). -/
theorem readCell_afterDraw (s : State) (x y : Reg) (n : Nibble) (r : Fin 32) (c : Fin 64) :
    readCell (afterDraw s x y n) r c = (readCell s r c ^^ decide ((r, c) ∈ drawTargets s x y n)) := by
  have h := foldl_flipCell_cell _ (nodup_drawTargets s x y n) (s.fb, false) (r, c)
  rw [drawTargets, ← drawRows_eq] at h
  exact h

/-- The collision is one of the flipped cells having been on, before it was flipped. -/
theorem drawCanvas_hit (s : State) (x y : Reg) (n : Nibble) :
    (drawCanvas s x y n).2 = (drawTargets s x y n).any (fbCell s.fb) := by
  rw [drawCanvas, drawRows_eq]
  exact foldl_flipCell_hit _ (nodup_drawTargets s x y n) (s.fb, false)

theorem drawCanvas_hit_iff : (drawCanvas s x y n).2 = true ↔
    ∃ r c, readCell s r c = true ∧ spriteCovers s x y n r c := by
  simp only [drawCanvas_hit, List.any_eq_true, Prod.exists, mem_drawTargets_iff_spriteCovers]
  exact exists₂_congr fun r c => and_comm

theorem readReg_afterDraw_regVF (s : State) (x y : Reg) (n : Nibble) :
    readReg (afterDraw s x y n) regVF = flagByte (drawCanvas s x y n).2 :=
  readReg_writeReg_self _ _ _

/-- VF is 1 when an on cell lay under a 1 bit. -/
theorem readReg_afterDraw_of_hit (h : ∃ r c, readCell s r c = true ∧ spriteCovers s x y n r c) :
    readReg (afterDraw s x y n) regVF = 1 := by
  rw [readReg_afterDraw_regVF, drawCanvas_hit_iff.2 h]
  rfl

theorem readReg_afterDraw_of_not_hit
    (h : ¬ ∃ r c, readCell s r c = true ∧ spriteCovers s x y n r c) :
    readReg (afterDraw s x y n) regVF = 0 := by
  rw [readReg_afterDraw_regVF, Bool.eq_false_iff.2 (mt drawCanvas_hit_iff.1 h)]
  rfl

theorem exec_drw_of_range (x y : Reg) (h : n.toNat = 0 ∨ s.idx.toNat + (n.toNat - 1) ≤ 0xFFF) :
    exec (.drw x y n) s = .next (afterDraw s x y n) :=
  withDataRange_of_le s n.toNat _ h

theorem exec_drw_eq_next (h : exec (.drw x y n) s = .next t) : t = afterDraw s x y n :=
  (Host.Outcome.next.inj (withDataRange_eq_next s _ _ t h).2).symm

/-- Settles O52: in range each cell is flipped exactly when it is one of the sprite's, and VF says
whether one of these was on. -/
theorem drawXorsTheSprite : Obligations.DrawXorsTheSprite := by
  refine ⟨selects_opcodeRow (.drw 0 0 0) nofun, fun x y n s hpos hgt => ?fault,
    fun x y n s hrange => ?next⟩
  case fault => exact withDataRange_of_gt s n.toNat _ (by omega)
  case next =>
    have hrange' : n.toNat = 0 ∨ s.idx.toNat + (n.toNat - 1) ≤ 0xFFF := by omega
    have hexec := exec_drw_of_range x y hrange'
    refine ⟨_, hexec, fun r c => ?_, readReg_afterDraw_of_hit, readReg_afterDraw_of_not_hit,
      exec_changesOnly hexec⟩
    rw [readCell_afterDraw, ← mem_drawTargets_iff_spriteCovers]
    cases readCell s r c <;> simp

/-! ## Drawing twice -/

/-- A draw changes neither the sprite nor, unless VF is one of its coordinates, its place. -/
theorem drawTargets_afterDraw (s : State) (n : Nibble) (hx : x ≠ regVF) (hy : y ≠ regVF) :
    drawTargets (afterDraw s x y n) x y n = drawTargets s x y n := by
  have hcol : spriteCol (afterDraw s x y n) x = spriteCol s x := by
    rw [spriteCol, afterDraw, readReg_writeReg_ne _ _ _ _ hx, readReg_setFb, spriteCol]
  have hrow : spriteRow (afterDraw s x y n) y = spriteRow s y := by
    rw [spriteRow, afterDraw, readReg_writeReg_ne _ _ _ _ hy, readReg_setFb, spriteRow]
  have hread (a : Nat) : readByte (afterDraw s x y n) a = readByte s a := rfl
  rw [drawTargets, hcol, hrow, loadBytes_congr hread]
  rfl

/-- Settles O53: both draws flip the same cells, and a cell the first turned on is one of these and on
before the second. -/
theorem drawingTwiceRestoresTheFrameBuffer : Obligations.DrawingTwiceRestoresTheFrameBuffer := by
  intro x y n s t u hx hy hst htu
  obtain rfl := exec_drw_eq_next hst
  obtain rfl := exec_drw_eq_next htu
  have hsame := drawTargets_afterDraw s n hx hy
  refine ⟨fun r c => ?_, fun ⟨r, c, hoff, hon⟩ => readReg_afterDraw_of_hit ⟨r, c, hon, ?_⟩⟩
  · rw [readCell_afterDraw, readCell_afterDraw, hsame, Bool.xor_assoc, Bool.xor_self, Bool.xor_false]
  · rw [← mem_drawTargets_iff_spriteCovers, hsame]
    rw [readCell_afterDraw, hoff, Bool.false_xor] at hon
    exact of_decide_eq_true hon

/-! ## Skips on keys (44_display_keypad_timers.md R192, R193) -/

theorem keyIndex_eq_none {b : Byte} (h : 15 < b.toNat) : keyIndex b = none := dif_neg (by omega)

theorem zextByte_eq_ofNat (b : Byte) : zextByte b = BitVec.ofNat 16 b.toNat :=
  (BitVec.ofNat_toNat 16 b).symm

theorem skipIf_pc (s : State) (c : Bool) : (skipIf s c).pc = if c = true then s.pc + 2 else s.pc :=
  apply_ite State.pc (c = true) _ _

theorem skipIf_not_pc (s : State) (c : Bool) :
    (skipIf s (!c)).pc = if c = true then s.pc else s.pc + 2 := by
  cases c <;> rfl

theorem exec_skp_of_gt (h : 15 < (readReg s x).toNat) :
    exec (.skp x) s = .fault (.keyIndex (BitVec.ofNat 16 (readReg s x).toNat)) := by
  simp only [exec, execSkp, keyIndex_eq_none h, raise, zextByte_eq_ofNat]

theorem exec_sknp_of_gt (h : 15 < (readReg s x).toNat) :
    exec (.sknp x) s = .fault (.keyIndex (BitVec.ofNat 16 (readReg s x).toNat)) := by
  simp only [exec, execSknp, keyIndex_eq_none h, raise, zextByte_eq_ofNat]

theorem exec_skp_of_key {k : Fin 16} (h : (readReg s x).toNat = k.val) :
    exec (.skp x) s = .next (skipIf s (readKey s k)) := by
  simp only [exec, execSkp, keyIndex_eq_some.2 h.symm]

theorem exec_sknp_of_key {k : Fin 16} (h : (readReg s x).toNat = k.val) :
    exec (.sknp x) s = .next (skipIf s (!readKey s k)) := by
  simp only [exec, execSknp, keyIndex_eq_some.2 h.symm]

/-- Settles O54: the whole of V[x] is the index, so above 15 it is no key's. -/
theorem skipsOnKeys : Obligations.SkipsOnKeys :=
  ⟨selects_opcodeRow (.skp 0) nofun, selects_opcodeRow (.sknp 0) nofun,
    fun _ _ hgt => ⟨exec_skp_of_gt hgt, exec_sknp_of_gt hgt⟩, fun _ _ s hk =>
    ⟨⟨_, exec_skp_of_key hk, skipIf_pc s _, .skipIf rfl s _⟩,
      ⟨_, exec_sknp_of_key hk, skipIf_not_pc s _, .skipIf rfl s _⟩⟩⟩

/-! ## The wait for a key (44_display_keypad_timers.md R195) -/

/-- A pressed key with none pressed below it is the one found. -/
theorem lowestKey_of_least {k : Fin 16} (hk : readKey s k = true)
    (hleast : ∀ j, j < k → readKey s j = false) : lowestKey s = some k := by
  cases h : lowestKey s with
  | none => simp [lowestKey_eq_none s h k] at hk
  | some j =>
    obtain ⟨hj, hjleast⟩ := lowestKey_eq_some s j h
    have hkj : ¬ k < j := fun hlt => by simp [hjleast k hlt] at hk
    have hjk : ¬ j < k := fun hlt => by simp [hleast j hlt] at hj
    rw [Fin.le_antisymm (not_lt.1 hkj) (not_lt.1 hjk)]

theorem lowestKey_of_none (h : ∀ k, readKey s k = false) : lowestKey s = none :=
  List.find?_eq_none.2 fun k _ => by simp [h k]

theorem exec_ldVxK_of_least (x : Reg) {k : Fin 16} (hk : readKey s k = true)
    (hleast : ∀ j, j < k → readKey s j = false) :
    exec (.ldVxK x) s = .next (writeReg s x (BitVec.ofNat 8 k.val)) := by
  simp only [exec, execLdVxK, lowestKey_of_least hk hleast]

theorem exec_ldVxK_of_none (x : Reg) (h : ∀ k, readKey s k = false) :
    exec (.ldVxK x) s = .next (setPc s (s.pc - 2)) := by
  simp only [exec, execLdVxK, lowestKey_of_none h]

/-- Settles O55: the key found is the least pressed one, and its number fits in a byte. -/
theorem waitForKeyPolls : Obligations.WaitForKeyPolls := by
  refine ⟨selects_opcodeRow (.ldVxK 0) nofun, fun x k s hk hleast =>
    ⟨_, exec_ldVxK_of_least x hk hleast, ?_, .writeReg (.head _) s _⟩,
    fun x s hnone => ⟨_, exec_ldVxK_of_none x hnone, rfl, .setPc rfl s _⟩⟩
  rw [readReg_writeReg_self, BitVec.toNat_ofNat]
  omega

/-! ## The timers (44_display_keypad_timers.md R194, R196, R197) -/

/-- Settles O56: each form moves one byte as it is and writes its destination alone. -/
theorem timerLoadsAndReads : Obligations.TimerLoadsAndReads :=
  ⟨selects_opcodeRow (.ldVxDt 0) nofun, selects_opcodeRow (.ldDtVx 0) nofun,
    selects_opcodeRow (.ldStVx 0) nofun, fun x s =>
    ⟨⟨_, rfl, readReg_writeReg_self s x s.dt, .writeReg (.head _) s _⟩,
      ⟨_, rfl, rfl, .setDt rfl s _⟩, ⟨_, rfl, rfl, .setSt rfl s _⟩⟩⟩

end Sys2Proof.Machine
end

section
/-! SUPPORT. The fault of a result, of an instruction and of a Step, in numbers: each is a function of the state that neither the keys nor the random byte enter (60_exceptions.md R211 to R221). -/

namespace Sys2Proof.Machine

variable {s : State} {f : Fault}

/-! ## The fault of a result -/

/-- The fault a result stops with, if it does. -/
def faultOf : Result → Option Fault
  | .next _ => none
  | .fault f => some f
  | .refused _ => none

theorem faultOf_eq_some_iff {o : Result} : faultOf o = some f ↔ o = .fault f := by
  cases o with
  | fault g => rw [faultOf, Option.some_inj, Host.Outcome.fault.injEq]
  | next | refused => exact ⟨nofun, nofun⟩

/-- A result that is no refusal and has no fault is a next state. -/
theorem faultOf_eq_none_iff {o : Result} (ho : ∀ e, o ≠ .refused e) :
    faultOf o = none ↔ ∃ t, o = .next t := by
  cases o with
  | next t => exact ⟨fun _ => ⟨t, rfl⟩, fun _ => rfl⟩
  | fault g => exact ⟨nofun, nofun⟩
  | refused e => exact absurd rfl (ho e)

/-- The tick neither adds nor hides a fault. -/
theorem faultOf_completeStep (o : Result) : faultOf (completeStep o) = faultOf o := by
  cases o <;> rfl

/-! ## The fault of an instruction (60_exceptions.md R211, R213 to R216) -/

/-- The range check in the table's numbers; no bytes are in reach of no access (R213). -/
theorem faultOf_withDataRange (s t : State) (n : Nat) :
    faultOf (withDataRange s n (.next t)) =
      if 0 < n ∧ 0xFFF < s.idx.toNat + n - 1 then
        some (.dataAddress (if 0xFFF < s.idx.toNat then s.idx else 0x1000))
      else none := by
  split
  · rw [withDataRange_of_gt s n _ (by omega)]
    rfl
  · rw [withDataRange_of_le s n _ (by omega)]
    rfl

/-- Every instruction stops with the fault the table gives it, and with none where the table gives none. -/
theorem faultOf_exec (i : Instr) (s : State) : faultOf (exec i s) = tableFault i s := by
  cases i with
  | call nnn => exact apply_ite faultOf (s.sp.val = 16) _ _
  | ret =>
    by_cases hsp : s.sp.val = 0
    · rw [exec_ret_of_zero hsp]
      exact (if_pos hsp).symm
    · have htop : s.sp.val = (⟨s.sp.val - 1, by omega⟩ : Fin 16).val + 1 :=
        (Nat.sub_one_add_one hsp).symm
      rw [exec_ret_of_pos htop]
      exact (if_neg hsp).symm
  | drw | ldBVx | ldMemVx | ldVxMem => exact faultOf_withDataRange s _ _
  | skp x | sknp x =>
    by_cases hgt : 15 < (readReg s x).toNat
    · simp only [exec_skp_of_gt hgt, exec_sknp_of_gt hgt]
      exact (if_pos hgt).symm
    · have hkey : (readReg s x).toNat = (⟨(readReg s x).toNat, by omega⟩ : Fin 16).val := rfl
      simp only [exec_skp_of_key hkey, exec_sknp_of_key hkey]
      exact (if_neg hgt).symm
  | ldVxK =>
    simp only [exec, execLdVxK]
    split <;> rfl
  | _ => rfl

/-- Settles O10: the table's fault is the one `exec` stops with, and no instruction is refused. -/
theorem faultsAreThoseOfTheTable : Obligations.FaultsAreThoseOfTheTable := by
  refine ⟨fun i s f => ?fault, fun i s => ?next, fun _ => ⟨rfl, rfl⟩, fun _ => ⟨rfl, rfl⟩, ⟨rfl, rfl⟩,
    ⟨rfl, rfl⟩, fun _ => ⟨rfl, rfl⟩⟩
  case fault => rw [← faultOf_exec, faultOf_eq_some_iff]
  case next => rw [← faultOf_exec, faultOf_eq_none_iff (exec_ne_refused i s)]

/-! ## The fault of a Step (60_exceptions.md R212, R221) -/

/-- The fault of a Step from `s`: the fetch's past the memory, the table's for the fetched instruction
inside it. -/
def stepFault (s : State) : Option Fault :=
  match fetch s with
  | none => some (.fetchAddress s.pc)
  | some w => tableFault (decodeWith s.params.decodeMode w) s

theorem stepFault_of_gt (hpc : 0xFFE < s.pc.toNat) : stepFault s = some (.fetchAddress s.pc) := by
  rw [stepFault, fetch_of_gt s (Nat.not_le_of_lt hpc)]

theorem stepFault_of_fetch {w : Word} (hw : fetch s = some w) :
    stepFault s = tableFault (decodeWith s.params.decodeMode w) s := by
  rw [stepFault, hw]

/-- The table reads V, I and SP alone, which the pre-advance leaves. -/
theorem tableFault_beginStep (i : Instr) (r : Byte) (s : State) :
    tableFault i (beginStep r s) = tableFault i s := rfl

/-- `stepFault` is the fault of a Step, whatever its random byte. -/
theorem stepWith_eq_fault_iff {r : Byte} : stepWith r s = .fault f ↔ stepFault s = some f := by
  rw [← faultOf_eq_some_iff]
  cases hw : fetch s with
  | none => rw [stepWith, stepFault, hw, raise, faultOf]
  | some w =>
    rw [stepWith_of_fetch hw, faultOf_completeStep, faultOf_exec, tableFault_beginStep,
      stepFault_of_fetch hw]

/-- The fetch fault is no instruction's. -/
theorem tableFault_ne_fetchAddress (i : Instr) (s : State) (a : Word) :
    tableFault i s ≠ some (.fetchAddress a) := by
  cases i with
  | call | ret | drw | ldBVx | ldMemVx | ldVxMem | skp | sknp =>
    simp only [tableFault]
    split <;> nofun
  | _ => nofun

/-- Settles O9: past the memory the fetch stops the Step, and inside it only the table's faults can. -/
theorem fetchFaultsExactlyPastTheMemory : Obligations.FetchFaultsExactlyPastTheMemory := by
  intro s a
  rw [step, stepWith_eq_fault_iff]
  by_cases hpc : 0xFFE < s.pc.toNat
  · rw [stepFault_of_gt hpc, Option.some_inj, Fault.fetchAddress.injEq, eq_comm]
    exact (and_iff_right hpc).symm
  · rw [stepFault_of_fetch (fetch_of_le s (Nat.le_of_not_lt hpc))]
    exact iff_of_false (tableFault_ne_fetchAddress _ s a) fun h => hpc h.1

/-- The fault of a Step does not depend on the keys. -/
theorem stepFault_keys (s : State) (keys : Vector Bool 16) :
    stepFault { s with key := keys } = stepFault s := rfl

/-- Settles O13: neither the random byte nor the keys enter the fault of a Step. -/
theorem faultRepeatsWhateverTheKeys : Obligations.FaultRepeatsWhateverTheKeys := by
  intro s r r' f keys h
  rw [stepWith_eq_fault_iff] at h ⊢
  rw [stepFault_keys, h]

end Sys2Proof.Machine
end

section
/-! SUPPORT. The host's requests by their outcome, a timer across two Steps, and the Steps that only tick (70_reset_and_hazards.md R241 to R250). -/

namespace Sys2Proof.Machine

variable {s t : State}

/-! ## The host's requests (70_reset_and_hazards.md R242, R244) -/

/-- Settles O24: each kind of request keeps the invariant, and a rejected one keeps the state. -/
theorem everyHostRequestKeepsTheInvariant : Obligations.EveryHostRequestKeepsTheInvariant :=
  fun q _ hi => hi.hostStep q

theorem resetLoad_of_length_gt {image : List Byte} (hlen : Config.maxImage < image.length)
    (s : State) : resetLoad image s = .loadTooLarge image.length :=
  if_pos hlen

theorem hostStep_of_resetLoad_ok {image : List Byte} (h : resetLoad image s = .ok t) :
    hostStep (.resetLoad image) s = (.ok, t) := by
  rw [hostStep, h]

theorem hostStep_of_resetLoad_loadTooLarge {image : List Byte} {n : Nat}
    (h : resetLoad image s = .loadTooLarge n) :
    hostStep (.resetLoad image) s = (.loadTooLarge n, s) := by
  rw [hostStep, h]

/-- Settles O29: the host's report and state follow the outcome of the load. -/
theorem oversizedImageIsRejected : Obligations.OversizedImageIsRejected := by
  intro image s
  refine ⟨fun hlong => ?rejected, fun hfits => ?accepted⟩
  case rejected =>
    have hload := resetLoad_of_length_gt hlong s
    exact ⟨hload, hostStep_of_resetLoad_loadTooLarge hload⟩
  case accepted =>
    have hload := resetLoad_of_length_le hfits s
    exact ⟨_, hload, hostStep_of_resetLoad_ok hload⟩

/-! ## The delay timer across two Steps (70_reset_and_hazards.md R246) -/

/-- The Step that loads DT also ticks it. -/
theorem dt_of_step_ldDtVx {w : Word} {x : Reg} (hw : fetch s = some w)
    (hi : decodeWith s.params.decodeMode w = .ldDtVx x) (h : step s = .next t) :
    t.dt = tickByte (readReg s x) := by
  obtain ⟨-, u, hexec, rfl⟩ := step_eq_next hw h
  rw [hi] at hexec
  obtain rfl := Host.Outcome.next.inj hexec
  rfl

/-- The Step that reads DT gives its value from before the Step's own tick. -/
theorem readReg_of_step_ldVxDt {w : Word} {y : Reg} (hw : fetch s = some w)
    (hi : decodeWith s.params.decodeMode w = .ldVxDt y) (h : step s = .next t) :
    readReg t y = s.dt := by
  obtain ⟨-, u, hexec, rfl⟩ := step_eq_next hw h
  rw [hi] at hexec
  obtain rfl := Host.Outcome.next.inj hexec
  exact readReg_writeReg_self _ y s.dt

/-- Settles O57: of the two Steps' ticks only the first comes between the load and the read. -/
theorem delayTimerReadsBackOneLess : Obligations.DelayTimerReadsBackOneLess := by
  intro s t u w w' x y hw hload hst hw' hread htu
  rw [readReg_of_step_ldVxDt hw' hread htu, dt_of_step_ldDtVx hw hload hst, tickByte_toNat]

/-! ## Steps that only tick (70_reset_and_hazards.md R250) -/

/-- A Step whose instruction only puts PC back to the fetch address changes nothing but the timers. -/
theorem stepWith_of_exec_setPc_back {r : Byte} {w : Word} (hw : fetch s = some w)
    (hexec : exec (decodeWith s.params.decodeMode w) (beginStep r s) =
      .next (setPc (beginStep r s) s.pc)) :
    stepWith r s = .next { s with
      dt := tickByte s.dt
      st := tickByte s.st
      rand := r
      steps := s.steps + 1 } := by
  rw [stepWith_of_fetch hw, hexec]
  rfl

theorem exec_jp_self {nnn : Addr12} (hself : nnn.toNat = s.pc.toNat) (r : Byte) :
    exec (.jp nnn) (beginStep r s) = .next (setPc (beginStep r s) s.pc) := by
  have hpc : zextAddr nnn = s.pc := BitVec.eq_of_toNat_eq ((zextAddr_toNat nnn).trans hself)
  rw [← hpc]
  rfl

/-- The wait takes the pre-advance back when no key is pressed (R195). -/
theorem exec_ldVxK_beginStep_of_none (x : Reg) (hnone : ∀ k, readKey s k = false) (r : Byte) :
    exec (.ldVxK x) (beginStep r s) = .next (setPc (beginStep r s) s.pc) := by
  have hnone' : ∀ k, readKey (beginStep r s) k = false := hnone
  rw [exec_ldVxK_of_none x hnone', beginStep_pc, BitVec.add_sub_cancel]

/-- Settles O58: both instructions only put PC back to the fetch address. -/
theorem selfJumpAndWaitOnlyTick : Obligations.SelfJumpAndWaitOnlyTick := by
  intro s r w hw hinstr
  apply stepWith_of_exec_setPc_back hw
  obtain ⟨nnn, hjp, hself⟩ | ⟨x, hwait, hnone⟩ := hinstr
  · rw [hjp]
    exact exec_jp_self hself r
  · rw [hwait]
    exact exec_ldVxK_beginStep_of_none x hnone r

end Sys2Proof.Machine
end
